-- ==== Sys2Proof/Word.lean ====
section
/-! DEFINITION. The word types of the block (R6, R8 to R10): every quantity is unsigned, bit 0 is the least significant. -/

namespace Sys2Proof

/-- A general register, a timer or a byte of memory (R20, R31, R32, R50). -/
abbrev Byte := BitVec 8

/-- An opcode word, a program counter, an index register or a call-stack slot (R23, R27, R28, R70). -/
abbrev Word := BitVec 16

/-- A 4-bit register field used as an index into `V`: 0 to 15, so a register access is never out of range (R20). -/
abbrev RegIx := Fin 16

/-- The grid of 64 x 32 pixels, row-major: entry `py` is row `py`, its bit `px` is column `px` (R37, R186; log entry 16). -/
abbrev Display := Vector (BitVec 64) 32

end Sys2Proof
end

