-- ==== Sys2Proof/Syntax.lean ====
section
/-! DEFINITION. The 35 instructions of R75, one constructor per row of spec/opcode_table.json, in the table's order. -/

namespace Sys2Proof

/-- An instruction with its operands cut out (R72, R74): `x`, `y` register indices, `nn` an immediate byte, `nnn` an
absolute address, `n` a number of sprite rows. An address is held zero-extended to 16 bits, as every rule uses it, and
`n` is a count: WellFormed.lean says that they fit their 12 and 4 bits. -/
inductive Instr where
  /-- 0000, R100. -/
  | nop
  /-- 00E0, R150. -/
  | cls
  /-- 00EE, R101. -/
  | ret
  /-- 1NNN, R102. -/
  | jp (nnn : Word)
  /-- 2NNN, R103. -/
  | call (nnn : Word)
  /-- 3XNN, R104. -/
  | seImm (x : RegIx) (nn : Byte)
  /-- 4XNN, R105. -/
  | sneImm (x : RegIx) (nn : Byte)
  /-- 5XY0, R106. -/
  | seReg (x y : RegIx)
  /-- 6XNN, R120. -/
  | ldImm (x : RegIx) (nn : Byte)
  /-- 7XNN, R121. -/
  | addImm (x : RegIx) (nn : Byte)
  /-- 8XY0, R122. -/
  | ldReg (x y : RegIx)
  /-- 8XY1, R123. -/
  | or (x y : RegIx)
  /-- 8XY2, R124. -/
  | and (x y : RegIx)
  /-- 8XY3, R125. -/
  | xor (x y : RegIx)
  /-- 8XY4, R127. -/
  | addReg (x y : RegIx)
  /-- 8XY5, R128. -/
  | sub (x y : RegIx)
  /-- 8X?6, R129. The ignored nibble is kept, so that no bit of a word is lost (R73); no meaning reads it. -/
  | shr (x ignored : RegIx)
  /-- 8XY7, R130. -/
  | subn (x y : RegIx)
  /-- 8X?E, R131. The ignored nibble is kept (R73); no meaning reads it. -/
  | shl (x ignored : RegIx)
  /-- 9XY0, R107. -/
  | sneReg (x y : RegIx)
  /-- ANNN, R140. -/
  | ldI (nnn : Word)
  /-- BNNN, R108. -/
  | jpV0 (nnn : Word)
  /-- CXNN, R132. -/
  | rnd (x : RegIx) (nn : Byte)
  /-- DXYN, R152. -/
  | drw (x y : RegIx) (n : Nat)
  /-- EX9E, R160. -/
  | skp (x : RegIx)
  /-- EXA1, R161. -/
  | sknp (x : RegIx)
  /-- FX07, R163. -/
  | ldVxDt (x : RegIx)
  /-- FX0A, R162. -/
  | waitkey (x : RegIx)
  /-- FX15, R164. -/
  | ldDtVx (x : RegIx)
  /-- FX18, R165. -/
  | ldStVx (x : RegIx)
  /-- FX1E, R141. -/
  | addI (x : RegIx)
  /-- FX29, R142. -/
  | ldF (x : RegIx)
  /-- FX33, R143. -/
  | bcd (x : RegIx)
  /-- FX55, R144. -/
  | store (x : RegIx)
  /-- FX65, R145. -/
  | load (x : RegIx)
deriving DecidableEq, Repr

end Sys2Proof
end

