-- ==== Sys2Proof/WellFormed.lean ====
section
/-! DEFINITION. Which terms of Instr are instructions: the operands fit the fields of R72 and R74. Register indices and
immediate bytes fit by their types. -/

namespace Sys2Proof

/-- A 12-bit address: `nnn` is in 0..4095 (R74). -/
def addressFits (nnn : Word) : Bool := decide (nnn.toNat < 4096)

/-- A nibble: a sprite has 0 to 15 rows (R74, R151). -/
def rowsFit (n : Nat) : Bool := decide (n < 16)

/-- The instruction can be written as an opcode word (R72, R74). -/
def Instr.wellFormed : Instr → Bool
  | .jp nnn | .call nnn | .ldI nnn | .jpV0 nnn => addressFits nnn
  | .drw _ _ n => rowsFit n
  | .nop | .cls | .ret
  | .seImm _ _ | .sneImm _ _ | .ldImm _ _ | .addImm _ _ | .rnd _ _
  | .seReg _ _ | .sneReg _ _ | .ldReg _ _ | .or _ _ | .and _ _ | .xor _ _
  | .addReg _ _ | .sub _ _ | .subn _ _ | .shr _ _ | .shl _ _
  | .skp _ | .sknp _ | .ldVxDt _ | .waitkey _ | .ldDtVx _ | .ldStVx _
  | .addI _ | .ldF _ | .bcd _ | .store _ | .load _ => true

end Sys2Proof
end

