-- ==== Sys2Proof/Decode.lean ====
section
/-! DEFINITION. Opcode words to instructions and back (R54, R70 to R78). -/

namespace Sys2Proof

/-- The opcode word of two consecutive bytes, the one at the lower address in bits 15:8 (R54, R70). -/
def wordOfBytes (hi lo : Byte) : Word := hi ++ lo

/-- The two bytes of an opcode word in memory order (R54, R70). -/
def bytesOfWord (op : Word) : List Byte := [op.extractLsb' 8 8, op.extractLsb' 0 8]

/-- `fam`, bits 15:12 (R72). -/
def fieldFam (op : Word) : Nat := (op.extractLsb' 12 4).toNat

/-- `x`, bits 11:8 (R72). -/
def fieldX (op : Word) : RegIx := (op.extractLsb' 8 4).toFin

/-- `y`, bits 7:4 (R72). -/
def fieldY (op : Word) : RegIx := (op.extractLsb' 4 4).toFin

/-- `n`, bits 3:0 (R72). -/
def fieldN (op : Word) : Nat := (op.extractLsb' 0 4).toNat

/-- `nn`, bits 7:0 (R72). -/
def fieldNN (op : Word) : Byte := op.extractLsb' 0 8

/-- `nnn`, bits 11:0, zero-extended (R72, R74). -/
def fieldNNN (op : Word) : Word := (op.extractLsb' 0 12).setWidth 16

/-- Family 0x0: three whole words, every other one illegal (R76). -/
def decodeFam0 (op : Word) : Option Instr :=
  if op = 0x0000#16 then some .nop
  else if op = 0x00E0#16 then some .cls
  else if op = 0x00EE#16 then some .ret
  else none

/-- Family 0x8: the last nibble selects; the `y` nibble of SHR and SHL is an operand nobody reads (R73, R76). -/
def decodeFam8 (op : Word) : Option Instr :=
  match fieldN op with
  | 0x0 => some (.ldReg (fieldX op) (fieldY op))
  | 0x1 => some (.or (fieldX op) (fieldY op))
  | 0x2 => some (.and (fieldX op) (fieldY op))
  | 0x3 => some (.xor (fieldX op) (fieldY op))
  | 0x4 => some (.addReg (fieldX op) (fieldY op))
  | 0x5 => some (.sub (fieldX op) (fieldY op))
  | 0x6 => some (.shr (fieldX op) (fieldY op))
  | 0x7 => some (.subn (fieldX op) (fieldY op))
  | 0xE => some (.shl (fieldX op) (fieldY op))
  | _ => none

/-- Family 0xE: the low byte selects (R76). -/
def decodeFamE (op : Word) : Option Instr :=
  if fieldNN op = 0x9E#8 then some (.skp (fieldX op))
  else if fieldNN op = 0xA1#8 then some (.sknp (fieldX op))
  else none

/-- Family 0xF: the low byte selects (R76). -/
def decodeFamF (op : Word) : Option Instr :=
  if fieldNN op = 0x07#8 then some (.ldVxDt (fieldX op))
  else if fieldNN op = 0x0A#8 then some (.waitkey (fieldX op))
  else if fieldNN op = 0x15#8 then some (.ldDtVx (fieldX op))
  else if fieldNN op = 0x18#8 then some (.ldStVx (fieldX op))
  else if fieldNN op = 0x1E#8 then some (.addI (fieldX op))
  else if fieldNN op = 0x29#8 then some (.ldF (fieldX op))
  else if fieldNN op = 0x33#8 then some (.bcd (fieldX op))
  else if fieldNN op = 0x55#8 then some (.store (fieldX op))
  else if fieldNN op = 0x65#8 then some (.load (fieldX op))
  else none

/-- The instruction of an opcode word, walked as R76 walks the map; `none` is an illegal word (R78). -/
def decodeWord (op : Word) : Option Instr :=
  match fieldFam op with
  | 0x0 => decodeFam0 op
  | 0x1 => some (.jp (fieldNNN op))
  | 0x2 => some (.call (fieldNNN op))
  | 0x3 => some (.seImm (fieldX op) (fieldNN op))
  | 0x4 => some (.sneImm (fieldX op) (fieldNN op))
  | 0x5 => if fieldN op = 0 then some (.seReg (fieldX op) (fieldY op)) else none
  | 0x6 => some (.ldImm (fieldX op) (fieldNN op))
  | 0x7 => some (.addImm (fieldX op) (fieldNN op))
  | 0x8 => decodeFam8 op
  | 0x9 => if fieldN op = 0 then some (.sneReg (fieldX op) (fieldY op)) else none
  | 0xA => some (.ldI (fieldNNN op))
  | 0xB => some (.jpV0 (fieldNNN op))
  | 0xC => some (.rnd (fieldX op) (fieldNN op))
  | 0xD => some (.drw (fieldX op) (fieldY op) (fieldN op))
  | 0xE => decodeFamE op
  | 0xF => decodeFamF op
  | _ => none

/-- Why bytes are no instruction. -/
inductive DecodeError where
  /-- Fewer than two bytes (R70). -/
  | tooShort
  /-- The word matches no row of R75 (R78). -/
  | invalidOpcode (op : Word)
deriving DecidableEq, Repr

/-- Total on any bytes: the instruction at the front with the rest of the bytes, or the name of what is wrong. -/
def decode : List Byte → Except DecodeError (Instr × List Byte)
  | hi :: lo :: rest =>
    match decodeWord (wordOfBytes hi lo) with
    | some i => .ok (i, rest)
    | none => .error (.invalidOpcode (wordOfBytes hi lo))
  | _ => .error .tooShort

/-- The host's question: the instruction read from the bits `w` of an opcode-table row of `nbits` bits, bit 0 the least
significant bit of the (only) 16-bit word, laid out high byte first as the hardware stores it (R54). -/
def decodeTableWord (nbits w : Nat) : Option Instr :=
  match decode (bytesOfWord (BitVec.ofNat 16 (w % 2 ^ nbits))) with
  | .ok (i, _) => some i
  | .error _ => none

/-! ### The encoder, from the formats of R71 -/

/-- Format Z and A: a family nibble over a 12-bit field. -/
def wordA (fam : Nat) (nnn : Word) : Word := BitVec.ofNat 4 fam ++ nnn.setWidth 12

/-- Format XI and XK: a family nibble, a register, a byte. -/
def wordXI (fam : Nat) (x : RegIx) (nn : Byte) : Word := BitVec.ofNat 4 fam ++ BitVec.ofNat 4 x.val ++ nn

/-- Format XY, XS and XYN: a family nibble, two registers, a nibble. -/
def wordXYN (fam : Nat) (x y : RegIx) (n : Nat) : Word :=
  BitVec.ofNat 4 fam ++ BitVec.ofNat 4 x.val ++ BitVec.ofNat 4 y.val ++ BitVec.ofNat 4 n

/-- The opcode word of an instruction (R75). -/
def encode : Instr → Word
  | .nop => wordA 0x0 0x000#16
  | .cls => wordA 0x0 0x0E0#16
  | .ret => wordA 0x0 0x0EE#16
  | .jp nnn => wordA 0x1 nnn
  | .call nnn => wordA 0x2 nnn
  | .seImm x nn => wordXI 0x3 x nn
  | .sneImm x nn => wordXI 0x4 x nn
  | .seReg x y => wordXYN 0x5 x y 0x0
  | .ldImm x nn => wordXI 0x6 x nn
  | .addImm x nn => wordXI 0x7 x nn
  | .ldReg x y => wordXYN 0x8 x y 0x0
  | .or x y => wordXYN 0x8 x y 0x1
  | .and x y => wordXYN 0x8 x y 0x2
  | .xor x y => wordXYN 0x8 x y 0x3
  | .addReg x y => wordXYN 0x8 x y 0x4
  | .sub x y => wordXYN 0x8 x y 0x5
  | .shr x y => wordXYN 0x8 x y 0x6
  | .subn x y => wordXYN 0x8 x y 0x7
  | .shl x y => wordXYN 0x8 x y 0xE
  | .sneReg x y => wordXYN 0x9 x y 0x0
  | .ldI nnn => wordA 0xA nnn
  | .jpV0 nnn => wordA 0xB nnn
  | .rnd x nn => wordXI 0xC x nn
  | .drw x y n => wordXYN 0xD x y n
  | .skp x => wordXI 0xE x 0x9E#8
  | .sknp x => wordXI 0xE x 0xA1#8
  | .ldVxDt x => wordXI 0xF x 0x07#8
  | .waitkey x => wordXI 0xF x 0x0A#8
  | .ldDtVx x => wordXI 0xF x 0x15#8
  | .ldStVx x => wordXI 0xF x 0x18#8
  | .addI x => wordXI 0xF x 0x1E#8
  | .ldF x => wordXI 0xF x 0x29#8
  | .bcd x => wordXI 0xF x 0x33#8
  | .store x => wordXI 0xF x 0x55#8
  | .load x => wordXI 0xF x 0x65#8

/-- The bytes of an instruction in memory, high byte first (R70). -/
def encodeBytes (i : Instr) : List Byte := bytesOfWord (encode i)

/-! ### The opcode table of R75 as data -/

/-- One row of R75: an opcode word `op` is the row's instruction exactly when `op &&& mask = value`. -/
structure OpcodeRow where
  mnemonic : String
  mask : Word
  value : Word
deriving DecidableEq, Repr

/-- R75, rows 1 to 20. -/
def opcodeRowsLow : List OpcodeRow :=
  [⟨"NOP", 0xFFFF, 0x0000⟩, ⟨"CLS", 0xFFFF, 0x00E0⟩, ⟨"RET", 0xFFFF, 0x00EE⟩,
   ⟨"JP", 0xF000, 0x1000⟩, ⟨"CALL", 0xF000, 0x2000⟩, ⟨"SE_IMM", 0xF000, 0x3000⟩,
   ⟨"SNE_IMM", 0xF000, 0x4000⟩, ⟨"SE_REG", 0xF00F, 0x5000⟩, ⟨"LD_IMM", 0xF000, 0x6000⟩,
   ⟨"ADD_IMM", 0xF000, 0x7000⟩, ⟨"LD_REG", 0xF00F, 0x8000⟩, ⟨"OR", 0xF00F, 0x8001⟩,
   ⟨"AND", 0xF00F, 0x8002⟩, ⟨"XOR", 0xF00F, 0x8003⟩, ⟨"ADD_REG", 0xF00F, 0x8004⟩,
   ⟨"SUB", 0xF00F, 0x8005⟩, ⟨"SHR", 0xF00F, 0x8006⟩, ⟨"SUBN", 0xF00F, 0x8007⟩,
   ⟨"SHL", 0xF00F, 0x800E⟩, ⟨"SNE_REG", 0xF00F, 0x9000⟩]

/-- R75, rows 21 to 35. -/
def opcodeRowsHigh : List OpcodeRow :=
  [⟨"LD_I", 0xF000, 0xA000⟩, ⟨"JP_V0", 0xF000, 0xB000⟩, ⟨"RND", 0xF000, 0xC000⟩,
   ⟨"DRW", 0xF000, 0xD000⟩, ⟨"SKP", 0xF0FF, 0xE09E⟩, ⟨"SKNP", 0xF0FF, 0xE0A1⟩,
   ⟨"LD_VX_DT", 0xF0FF, 0xF007⟩, ⟨"WAITKEY", 0xF0FF, 0xF00A⟩, ⟨"LD_DT_VX", 0xF0FF, 0xF015⟩,
   ⟨"LD_ST_VX", 0xF0FF, 0xF018⟩, ⟨"ADD_I", 0xF0FF, 0xF01E⟩, ⟨"LD_F", 0xF0FF, 0xF029⟩,
   ⟨"BCD", 0xF0FF, 0xF033⟩, ⟨"STORE", 0xF0FF, 0xF055⟩, ⟨"LOAD", 0xF0FF, 0xF065⟩]

/-- The whole table of R75. -/
def opcodeRows : List OpcodeRow := opcodeRowsLow ++ opcodeRowsHigh

/-- The row's pattern test: `op & mask == match` (R75). -/
def OpcodeRow.matchesWord (r : OpcodeRow) (op : Word) : Bool := op &&& r.mask == r.value

/-- The mnemonic of an instruction, as R75 spells it. -/
def Instr.mnemonic : Instr → String
  | .nop => "NOP"
  | .cls => "CLS"
  | .ret => "RET"
  | .jp _ => "JP"
  | .call _ => "CALL"
  | .seImm _ _ => "SE_IMM"
  | .sneImm _ _ => "SNE_IMM"
  | .seReg _ _ => "SE_REG"
  | .ldImm _ _ => "LD_IMM"
  | .addImm _ _ => "ADD_IMM"
  | .ldReg _ _ => "LD_REG"
  | .or _ _ => "OR"
  | .and _ _ => "AND"
  | .xor _ _ => "XOR"
  | .addReg _ _ => "ADD_REG"
  | .sub _ _ => "SUB"
  | .shr _ _ => "SHR"
  | .subn _ _ => "SUBN"
  | .shl _ _ => "SHL"
  | .sneReg _ _ => "SNE_REG"
  | .ldI _ => "LD_I"
  | .jpV0 _ => "JP_V0"
  | .rnd _ _ => "RND"
  | .drw _ _ _ => "DRW"
  | .skp _ => "SKP"
  | .sknp _ => "SKNP"
  | .ldVxDt _ => "LD_VX_DT"
  | .waitkey _ => "WAITKEY"
  | .ldDtVx _ => "LD_DT_VX"
  | .ldStVx _ => "LD_ST_VX"
  | .addI _ => "ADD_I"
  | .ldF _ => "LD_F"
  | .bcd _ => "BCD"
  | .store _ => "STORE"
  | .load _ => "LOAD"

end Sys2Proof
end

