-- ==== Sys2Proof/Machine/State.lean ====
section
/-! DEFINITION. The state of the block (10_state.md), the commands of its host, and the reasons a step can stop. -/

namespace Sys2Proof.Machine

/-- The faults of the block (R200), held by the FAULT latch. Taking one is a NEXT state (R209), so no step of this model
answers `Outcome.fault`: each constructor says which command latches it. All are safe: the latched state is the one the
spec gives, and nothing runs in it until RESET. -/
inductive Fault where
  /-- Latched by a TICK (fetch, DRW, BCD, STORE, LOAD, SKP, SKNP), by the LOAD command and by KEYPRESS (R202). Safe. -/
  | memoryFault
  /-- Latched by CALL with sp = 16 and RET with sp = 0 (R203). Safe. -/
  | stackFault
  /-- Latched by a TICK that fetched the illegal word `op` (R204). Safe. -/
  | invalidOpcode (op : Word)
  /-- Latched by a LOAD command with LOADED = 1 (R205). Safe. -/
  | loadFault
deriving DecidableEq, Repr

/-- The reasons the model has no meaning for an instruction. -/
inductive Refusal where
  /-- Raised by exec for an instruction without a meaning: none is left. Safe. -/
  | notModelled (mnemonic : String)
deriving DecidableEq, Repr

/-- The commands of the host (R182). -/
inductive Command where
  /-- RESET, R230. -/
  | reset
  /-- LOAD(bytes), R185. -/
  | load (bytes : List Byte)
  /-- TICK(rnd), R90. -/
  | tick (rnd : Byte)
  /-- TICK_TIMERS, R170. -/
  | tickTimers
  /-- KEYPRESS(index, pressed), R183: the index is a natural number. -/
  | keypress (index : Nat) (pressed : Bool)
  /-- DISPLAY, R186. -/
  | display
deriving DecidableEq, Repr, Inhabited

/-- The MODEL's own record of the host's side; no part of the block (R42). -/
structure HostSide where
  /-- The commands the host has chosen already and the block has not performed yet, oldest first; what it chooses after them
  is free (log entry 3). -/
  inbox : List Command
  /-- The byte that the TICK in progress carries (R184, log entry 2). -/
  rnd : Byte
  /-- How many of the host's free choices, commands and placed bytes, have been made (log entries 2 and 3). -/
  draws : Nat
deriving DecidableEq, Repr

/-- Memory as the list of the bytes that differ from what reset leaves, addresses rising (`Memory.wf`). -/
abbrev Memory := List Host.Cell

/-- The state of the block, and the host's side of the model. -/
structure State where
  /-- V0 to VF (R20). -/
  V : Vector Byte 16
  /-- The program counter (R23). -/
  pc : Word
  /-- The index register (R27). -/
  I : Word
  /-- How many return addresses the call stack holds, 0 to 16 (R30). -/
  sp : Fin 17
  /-- The call stack (R28). -/
  stack : Vector Word 16
  /-- The key levels, true = pressed (R29). -/
  keys : Vector Bool 16
  /-- The delay timer DT (R31). -/
  dt : Byte
  /-- The sound timer ST (R32). -/
  st : Byte
  /-- The pixels (R37). -/
  display : Display
  /-- mem[0..4095] (R35). -/
  mem : Memory
  /-- The FAULT latch, none = NoFault (R40). -/
  fault : Option Fault
  /-- The LOADED latch (R41). -/
  loaded : Bool
  /-- The model's own: the host's side (log entries 2 and 3). -/
  host : HostSide
deriving DecidableEq, Repr

/-- The state after power-on and after RESET (R230, R231). Memory with nothing listed reads as the reset contents of
R35. The host's side is the model's own (log entries 2 and 3). -/
def State.reset : State where
  V := Vector.replicate 16 0#8
  pc := 0x200#16
  I := 0#16
  sp := 0
  stack := Vector.replicate 16 0#16
  keys := Vector.replicate 16 false
  dt := 0#8
  st := 0#8
  display := Vector.replicate 32 0#64
  mem := []
  fault := none
  loaded := false
  host := { inbox := [], rnd := 0#8, draws := 0 }

end Sys2Proof.Machine
end

