-- ==== Sys2Proof/Config.lean ====
section
/-! DEFINITION. What the spec leaves free: the host's choice of the next command and the "fresh random byte". The parameters
that have a default of the spec (the font table and the switch MEM_INCREMENTS_I) stand in Machine/Params.lean. -/

namespace Sys2Proof

/-- FREE VALUE (log entry 3): the k-th command that the host chooses by itself, its arguments included. The host is free in
which command comes next, in their order, number and pace (R174, R180, R181, R241), so nothing can be proved about it: a
claim that holds of this function holds of every interleaving of the six commands. -/
opaque Config.hostCommand : Nat → Machine.Command

/-- FREE VALUE (log entry 2): the byte of a TICK that withFetchWord places. The spec names no generator, seed, distribution
or period (R132, R184), so nothing can be proved about it: a claim that holds of this function holds of every byte. -/
opaque Config.freshByte : Nat → Byte

end Sys2Proof
end

