-- ==== Sys2Proof/Machine/Params.lean ====
section
/-! DEFINITION. The two parameters of R7 that the spec gives a default for. -/

namespace Sys2Proof

/-- The default font of R36, glyphs 0 to 7, top row first. -/
def Config.fontLow : List Byte :=
  [0xF0, 0x90, 0x90, 0x90, 0xF0,  0x20, 0x60, 0x20, 0x20, 0x70,
   0xF0, 0x10, 0xF0, 0x80, 0xF0,  0xF0, 0x10, 0xF0, 0x10, 0xF0,
   0x90, 0x90, 0xF0, 0x10, 0x10,  0xF0, 0x80, 0xF0, 0x10, 0xF0,
   0xF0, 0x80, 0xF0, 0x90, 0xF0,  0xF0, 0x10, 0x20, 0x40, 0x40]

/-- The default font of R36, glyphs 8 to F, top row first. -/
def Config.fontHigh : List Byte :=
  [0xF0, 0x90, 0xF0, 0x90, 0xF0,  0xF0, 0x90, 0xF0, 0x10, 0xF0,
   0xF0, 0x90, 0xF0, 0x90, 0x90,  0xE0, 0x90, 0xE0, 0x90, 0xE0,
   0xF0, 0x80, 0x80, 0x80, 0xF0,  0xE0, 0x90, 0x90, 0x90, 0xE0,
   0xF0, 0x80, 0xF0, 0x80, 0xF0,  0xF0, 0x80, 0xF0, 0x80, 0x80]

/-- FONT[0..79], the constant copied to memory at reset (R36). PRESUMED (log entry 1): the source gives no byte of it,
the spec gives this table from general knowledge as the default. Only the layout (glyph d at 5d, five bytes) is the
source's; a claim that reads a glyph byte rests on this table. -/
def Config.font : List Byte := Config.fontLow ++ Config.fontHigh

/-- MEM_INCREMENTS_I, default false (R7, R146): whether STORE and LOAD leave I advanced by x + 1. The spec fixes it to
false (conflict C2, decision D12; log entry 6). -/
def Config.memIncrementsI : Bool := false

end Sys2Proof
end

