-- ==== Sys2Proof/Machine/Ops.lean ====
section
/-! DEFINITION. The named operations over memory, registers, program counter, call stack and keys; fault entry and RESET. -/

namespace Sys2Proof.Machine

/-! ### Memory -/

/-- What an address that nothing has written reads as: the reset contents, FONT at 0..79 and 0 elsewhere (R35). -/
def resetByte (a : Nat) : Byte := if a < 80 then Config.font.getD a 0#8 else 0#8

/-- The byte at `a`: as listed, else as reset left it. -/
def Memory.get : Memory → Nat → Byte
  | [], a => resetByte a
  | (b, w) :: m, a => if a = b then w else Memory.get m a

/-- The list without the address `a`. -/
def Memory.drop (m : Memory) (a : Nat) : Memory := m.filter (fun c => c.1 ≠ a)

/-- The list with `a` put where the rising order wants it. -/
def Memory.insert : Memory → Nat → Byte → Memory
  | [], a, v => [(a, v)]
  | (b, w) :: m, a, v => if a < b then (a, v) :: (b, w) :: m else (b, w) :: Memory.insert m a v

/-- Memory with `v` at `a`, in canonical form: nothing is listed that an unlisted address reads as. -/
def Memory.put (m : Memory) (a : Nat) (v : Byte) : Memory :=
  if v = resetByte a then Memory.drop m a else Memory.insert (Memory.drop m a) a v

/-- The canonical form: addresses rise and exist, and no entry says what an unlisted address reads as. -/
abbrev Memory.wf (m : Memory) : Prop :=
  m.Pairwise (fun c d => c.1 < d.1) ∧ ∀ c ∈ m, c.1 < 4096 ∧ c.2 ≠ resetByte c.1

/-- MemRead(addr, 1): `none` is MemoryFault (R12); the address is an unbounded natural number (R64). -/
def Memory.read (m : Memory) (a : Nat) : Option Byte := if a < 4096 then some (Memory.get m a) else none

/-- MemWrite(addr, 1, v): `none` is MemoryFault (R13); no address is protected (R53). -/
def Memory.write (m : Memory) (a : Nat) (v : Byte) : Option Memory :=
  if a < 4096 then some (Memory.put m a v) else none

/-- `n` one-byte reads in ascending order, each checked (R57, R65). -/
def Memory.readBlock (m : Memory) (a : Nat) : Nat → Option (List Byte)
  | 0 => some []
  | n + 1 =>
    match Memory.read m a with
    | none => none
    | some b => (Memory.readBlock m (a + 1) n).map (fun bs => b :: bs)

/-- One-byte writes in ascending order, each checked (R57, R65). -/
def Memory.writeBlock : Memory → Nat → List Byte → Option Memory
  | m, _, [] => some m
  | m, a, b :: bs =>
    match Memory.write m a b with
    | none => none
    | some m' => Memory.writeBlock m' (a + 1) bs

/-- The byte at address `a` of a state (a view for statements; every access of the machine is checked). -/
def State.byte (s : State) (a : Nat) : Byte := Memory.get s.mem a

/-! ### Registers, program counter, pixels -/

/-- V[x] (R11, R20). -/
def State.reg (s : State) (x : RegIx) : Byte := s.V.get x

/-- V[x] <- v (R11, R20). -/
def State.setReg (s : State) (x : RegIx) (v : Byte) : State := { s with V := s.V.set x.val v x.isLt }

/-- VF, the implicit flag output (R22). -/
abbrev VF : RegIx := 15

/-- V[k], V[k+1], ... <- the bytes, in ascending order; there is no register above 15. -/
def setRegsFrom (V : Vector Byte 16) (k : Nat) : List Byte → Vector Byte 16
  | [] => V
  | b :: bs => setRegsFrom (V.setIfInBounds k b) (k + 1) bs

/-- pc <- target (R11). -/
def State.setPc (s : State) (a : Word) : State := { s with pc := a }

/-- I <- v (R27). -/
def State.setI (s : State) (v : Word) : State := { s with I := v }

/-- The fetch-time advance: pc <- (pc + 2) mod 2^16 (R92). -/
def State.advance (s : State) : State := { s with pc := s.pc + 2#16 }

/-- Skip() when the condition holds (R17). -/
def State.skipIf (s : State) (c : Bool) : State := if c then { s with pc := s.pc + 2#16 } else s

/-- The pc set back by 2, which undoes the advance (R92, R162). -/
def State.rewind (s : State) : State := { s with pc := s.pc - 2#16 }

/-- display[i], where i = 64 * py + px (R37); there is no pixel from 2048 on. -/
def displayBit (d : Display) (i : Nat) : Bool :=
  if h : i / 64 < 32 then d[i / 64].getLsbD (i % 64) else false

/-- display[i] <- display[i] ^ 1 (R37, R152). -/
def flipBit (d : Display) (i : Nat) : Display :=
  if h : i / 64 < 32 then d.set (i / 64) (d[i / 64] ^^^ BitVec.twoPow 64 (i % 64)) else d

/-- display[i] of a state (R37). -/
def State.pixel (s : State) (i : Nat) : Bool := displayBit s.display i

/-! ### Call stack and keys -/

/-- Push(v): `none` is StackFault; the slot written is the one the old sp names (R15). -/
def State.push (s : State) (v : Word) : Option State :=
  if h : s.sp.val < 16 then
    some { s with stack := s.stack.set s.sp.val v h, sp := ⟨s.sp.val + 1, by omega⟩ }
  else none

/-- Pop(): `none` is StackFault; the vacated slot keeps its value (R15, R28). -/
def State.pop (s : State) : Option (Word × State) :=
  match s.sp with
  | ⟨0, _⟩ => none
  | ⟨k + 1, h⟩ => some (s.stack[k]'(by omega), { s with sp := ⟨k, by omega⟩ })

/-- KeyRead(k): `none` is MemoryFault; the index is not masked (R16). -/
def State.keyRead (s : State) (k : Nat) : Option Bool := s.keys[k]?

/-- The least pressed key, scanning 0..15 in ascending order (R162). -/
def State.lowestKey (s : State) : Option (Fin 16) := (List.finRange 16).find? (fun k => s.keys.get k)

/-! ### Fault entry and the way out -/

/-- Taking a fault (R209). `s` is the state in which the command ARRIVED: every write the command made before the raise,
the fetch-time advance of the pc among them, is discarded, and only the FAULT latch is set (log entry 4). -/
def State.raise (s : State) (f : Fault) : State := { s with fault := some f }

/-- The end of a command that may raise `f`: its result, or fault entry in the state `s` in which it arrived. -/
def commit (s : State) (f : Fault) (result : Option State) : Host.Outcome State Fault Refusal :=
  .next (result.getD (s.raise f))

/-- RESET (R230), the only way out of the halted state (R211, R212): every element of the block at its reset value,
whatever the state was. The host's side is no part of the block and stays (log entry 3). -/
def State.restart (s : State) : State := { State.reset with host := s.host }

/-- Halted: FAULT is not NoFault (R211). -/
def State.halted (s : State) : Bool := s.fault.isSome

/-- The `kind` of the FAULT output (R201). -/
def faultKind : Option Fault → BitVec 3
  | none => 0
  | some .memoryFault => 1
  | some .stackFault => 2
  | some (.invalidOpcode _) => 3
  | some .loadFault => 4

/-- The `info` of the FAULT output: the opcode of InvalidOpcode, else 0 (R201). -/
def faultInfo : Option Fault → Word
  | some (.invalidOpcode op) => op
  | _ => 0

/-! ### Fetch -/

/-- MemRead(pc, 2), big-endian, pc + 1 without wrap; `none` is MemoryFault (R12, R54, R91). -/
def State.fetch (s : State) : Option Word :=
  match Memory.read s.mem s.pc.toNat, Memory.read s.mem (s.pc.toNat + 1) with
  | some hi, some lo => some (wordOfBytes hi lo)
  | _, _ => none

/-- The state with an opcode word at the pc and ready to be ticked: not halted, one TICK with a free byte pending from the
host and nothing else, and the pc at 512 where no word can be fetched at the old one (log entry 8). The count of draws moves
on, so that words placed one after the other carry bytes that nothing relates (R184). DESIGN CHOICE (log entry 2): two words
placed into one and the same state carry the same byte. -/
def State.placeWord (s : State) (op : Word) : State :=
  let pc := if s.pc.toNat < 4095 then s.pc else 0x200#16
  let mem := Memory.put (Memory.put s.mem pc.toNat (op.extractLsb' 8 8)) (pc.toNat + 1) (op.extractLsb' 0 8)
  let host := { s.host with inbox := [.tick (Config.freshByte s.host.draws)], draws := s.host.draws + 1 }
  { s with pc := pc, mem := mem, fault := none, host := host }

end Sys2Proof.Machine
end

