-- ==== Sys2Proof/Machine/Operands.lean ====
section
/-! DEFINITION. Every operand form (R74, R146, R151): addresses held in I, immediates, sprite coordinates. -/

namespace Sys2Proof.Machine

/-- The effective address I + k, an unbounded natural number (R64, R146). -/
def State.ea (s : State) (k : Nat) : Nat := s.I.toNat + k

/-- The three bytes BCD stores: hundreds, tens, ones (R143). -/
def bcdDigits (v : Byte) : List Byte :=
  [BitVec.ofNat 8 (v.toNat / 100), BitVec.ofNat 8 (v.toNat / 10 % 10), BitVec.ofNat 8 (v.toNat % 10)]

/-- V[0], ..., V[x], the bytes STORE moves (R144). -/
def State.regsUpTo (s : State) (x : RegIx) : List Byte := s.V.toList.take (x.val + 1)

/-- I after a STORE or LOAD of `x + 1` bytes: unchanged unless `increments` (MEM_INCREMENTS_I) is on (R7, R146). -/
def State.indexAfter (s : State) (increments : Bool) (x : RegIx) : Word :=
  if increments then s.I + BitVec.ofNat 16 (x.val + 1) else s.I

/-- The address of the glyph of a digit: 5 * V[x], unmasked (R142). -/
def glyphAddress (v : Byte) : Word := BitVec.ofNat 16 (5 * v.toNat)

/-- The display index of sprite row `r`, column `c` drawn at (ox, oy): both axes wrap (R151). -/
def pixelIndex (ox oy r c : Nat) : Nat := 64 * ((oy + r) % 32) + (ox + c) % 64

end Sys2Proof.Machine
end

