-- ==== Sys2Proof/Machine/Flags.lean ====
section
/-! DEFINITION. Every value that an instruction writes to VF implicitly (R22), but the collision bit, which DisplayOps
computes while it draws. -/

namespace Sys2Proof.Machine

/-- ADD_REG: 1 on carry out of bit 7 (R127). -/
def carryFlag (a b : Byte) : Byte := if 255 < a.toNat + b.toNat then 1#8 else 0#8

/-- SUB of `b` from `a`: 0 on borrow, else 1 (R128, R130). -/
def notBorrowFlag (a b : Byte) : Byte := if a.toNat < b.toNat then 0#8 else 1#8

/-- SHR: the bit shifted out, bit 0 (R129). -/
def lowBitFlag (a : Byte) : Byte := if a.getLsbD 0 then 1#8 else 0#8

/-- SHL: the bit shifted out, bit 7 (R131). -/
def highBitFlag (a : Byte) : Byte := if a.getLsbD 7 then 1#8 else 0#8

/-- DRW: the collision bit as a byte (R152). -/
def collisionFlag (collided : Bool) : Byte := if collided then 1#8 else 0#8

end Sys2Proof.Machine
end

