-- ==== Sys2Proof/Machine/Arithmetic.lean ====
section
/-! DEFINITION. Register load, arithmetic, logic, shift and random (42_arithmetic_logic.md). -/

namespace Sys2Proof.Machine

/-- LD Vx, nn (R120). -/
def execLdImm (x : RegIx) (nn : Byte) (s : State) : Host.Outcome State Fault Refusal :=
  .next (s.advance.setReg x nn)

/-- ADD Vx, nn (R121): no flag. -/
def execAddImm (x : RegIx) (nn : Byte) (s : State) : Host.Outcome State Fault Refusal :=
  .next (s.advance.setReg x (s.reg x + nn))

/-- LD Vx, Vy (R122). -/
def execLdReg (x y : RegIx) (s : State) : Host.Outcome State Fault Refusal :=
  .next (s.advance.setReg x (s.reg y))

/-- OR Vx, Vy (R123): VF is not reset. -/
def execOr (x y : RegIx) (s : State) : Host.Outcome State Fault Refusal :=
  .next (s.advance.setReg x (s.reg x ||| s.reg y))

/-- AND Vx, Vy (R124): VF is not reset. -/
def execAnd (x y : RegIx) (s : State) : Host.Outcome State Fault Refusal :=
  .next (s.advance.setReg x (s.reg x &&& s.reg y))

/-- XOR Vx, Vy (R125): VF is not reset. -/
def execXor (x y : RegIx) (s : State) : Host.Outcome State Fault Refusal :=
  .next (s.advance.setReg x (s.reg x ^^^ s.reg y))

/-- ADD Vx, Vy (R127): result first, flag last, the flag from the operands read (R126). -/
def execAddReg (x y : RegIx) (s : State) : Host.Outcome State Fault Refusal :=
  .next ((s.advance.setReg x (s.reg x + s.reg y)).setReg VF (carryFlag (s.reg x) (s.reg y)))

/-- SUB Vx, Vy (R128): result first, flag last (R126). -/
def execSub (x y : RegIx) (s : State) : Host.Outcome State Fault Refusal :=
  .next ((s.advance.setReg x (s.reg x - s.reg y)).setReg VF (notBorrowFlag (s.reg x) (s.reg y)))

/-- SHR Vx (R129): flag first, then the shift of V[x] as the flag left it, which shows where x is 15 (R126, decision D8;
log entry 5). The nibble `y` is neither read nor written (R73). -/
def execShr (x : RegIx) (s : State) : Host.Outcome State Fault Refusal :=
  let t := s.advance.setReg VF (lowBitFlag (s.reg x))
  .next (t.setReg x (t.reg x >>> 1))

/-- SUBN Vx, Vy (R130): V[y] - V[x], result first, flag last (R126). -/
def execSubn (x y : RegIx) (s : State) : Host.Outcome State Fault Refusal :=
  .next ((s.advance.setReg x (s.reg y - s.reg x)).setReg VF (notBorrowFlag (s.reg y) (s.reg x)))

/-- SHL Vx (R131): flag first, then the shift of V[x] as the flag left it (R126, decision D8; log entry 5). -/
def execShl (x : RegIx) (s : State) : Host.Outcome State Fault Refusal :=
  let t := s.advance.setReg VF (highBitFlag (s.reg x))
  .next (t.setReg x (t.reg x <<< 1))

/-- RND Vx, nn (R132): the byte this TICK carries, masked (log entry 2). -/
def execRnd (x : RegIx) (nn : Byte) (s : State) : Host.Outcome State Fault Refusal :=
  .next (s.advance.setReg x (s.host.rnd &&& nn))

end Sys2Proof.Machine
end

