-- ==== Sys2Proof/Machine/ControlFlow.lean ====
section
/-! DEFINITION. Control flow (41_control_flow.md). Every meaning here and in the other families is applied to the state
in which the TICK arrived and begins with the fetch-time advance of R92; the rules' `pc` is the pc of `s.advance`. -/

namespace Sys2Proof.Machine

/-- NOP (R100). -/
def execNop (s : State) : Host.Outcome State Fault Refusal := .next s.advance

/-- RET (R101). -/
def execRet (s : State) : Host.Outcome State Fault Refusal :=
  commit s .stackFault (s.advance.pop.map (fun p => p.2.setPc p.1))

/-- JP nnn (R102). -/
def execJp (nnn : Word) (s : State) : Host.Outcome State Fault Refusal := .next (s.advance.setPc nnn)

/-- CALL nnn (R103): the advanced pc is pushed. -/
def execCall (nnn : Word) (s : State) : Host.Outcome State Fault Refusal :=
  commit s .stackFault ((s.advance.push s.advance.pc).map (fun t => t.setPc nnn))

/-- SE Vx, nn (R104). -/
def execSeImm (x : RegIx) (nn : Byte) (s : State) : Host.Outcome State Fault Refusal :=
  .next (s.advance.skipIf (s.reg x == nn))

/-- SNE Vx, nn (R105). -/
def execSneImm (x : RegIx) (nn : Byte) (s : State) : Host.Outcome State Fault Refusal :=
  .next (s.advance.skipIf (s.reg x != nn))

/-- SE Vx, Vy (R106). -/
def execSeReg (x y : RegIx) (s : State) : Host.Outcome State Fault Refusal :=
  .next (s.advance.skipIf (s.reg x == s.reg y))

/-- SNE Vx, Vy (R107). -/
def execSneReg (x y : RegIx) (s : State) : Host.Outcome State Fault Refusal :=
  .next (s.advance.skipIf (s.reg x != s.reg y))

/-- JP V0, nnn (R108): always register 0, and the sum is not reduced modulo 4096. -/
def execJpV0 (nnn : Word) (s : State) : Host.Outcome State Fault Refusal :=
  .next (s.advance.setPc ((s.reg 0).setWidth 16 + nnn))

end Sys2Proof.Machine
end

