-- ==== Sys2Proof/Machine/DisplayOps.lean ====
section
/-! DEFINITION. The framebuffer writer and its collision detector (44_display.md). -/

namespace Sys2Proof.Machine

/-- The pixels while a sprite is drawn, with whether some pixel has gone from lit to unlit so far (R152). -/
abbrev Canvas := Display × Bool

/-- One sprite bit that is 1: the pixel is toggled, and a lit one is a collision (R152). -/
def toggle (d : Canvas) (i : Nat) : Canvas :=
  (flipBit d.1 i, d.2 || displayBit d.1 i)

/-- One sprite row: column `c` is bit 7 - c of the byte; a 0 bit leaves its pixel alone (R151, R152). -/
def drawRow (ox oy r : Nat) (b : Byte) (d : Canvas) : Canvas :=
  (List.range 8).foldl (fun d c => if b.getLsbD (7 - c) then toggle d (pixelIndex ox oy r c) else d) d

/-- The sprite's rows from row `r` on, top first (R152). -/
def drawRows (ox oy : Nat) : Nat → List Byte → Canvas → Canvas
  | _, [], d => d
  | r, b :: bs, d => drawRows ox oy (r + 1) bs (drawRow ox oy r b d)

/-- CLS (R150): VF is not written. -/
def execCls (s : State) : Host.Outcome State Fault Refusal := .next { s.advance with display := Vector.replicate 32 0#64 }

/-- DRW Vx, Vy, n (R152): the origin is read before VF is written, all n bytes are read, VF is written last. -/
def execDrw (x y : RegIx) (n : Nat) (s : State) : Host.Outcome State Fault Refusal :=
  commit s .memoryFault
    ((Memory.readBlock s.mem (s.ea 0) n).map (fun rows =>
      let d := drawRows (s.reg x).toNat (s.reg y).toNat 0 rows (s.display, false)
      { s.advance with display := d.1 }.setReg VF (collisionFlag d.2)))

end Sys2Proof.Machine
end

