-- ==== Sys2Proof/Machine/IndexMemory.lean ====
section
/-! DEFINITION. The index register and memory (43_index_and_memory.md). -/

namespace Sys2Proof.Machine

/-- LD I, nnn (R140). -/
def execLdI (nnn : Word) (s : State) : Host.Outcome State Fault Refusal := .next (s.advance.setI nnn)

/-- ADD I, Vx (R141): wraps at 16 bits, no flag. -/
def execAddI (x : RegIx) (s : State) : Host.Outcome State Fault Refusal :=
  .next (s.advance.setI (s.I + (s.reg x).setWidth 16))

/-- LD F, Vx (R142): the whole byte is multiplied. -/
def execLdF (x : RegIx) (s : State) : Host.Outcome State Fault Refusal :=
  .next (s.advance.setI (glyphAddress (s.reg x)))

/-- LD B, Vx (R143). -/
def execBcd (x : RegIx) (s : State) : Host.Outcome State Fault Refusal :=
  commit s .memoryFault
    ((Memory.writeBlock s.mem (s.ea 0) (bcdDigits (s.reg x))).map (fun m => { s.advance with mem := m }))

/-- STORE under either setting of MEM_INCREMENTS_I (R144, R146). -/
def storeBlock (increments : Bool) (x : RegIx) (s : State) : Host.Outcome State Fault Refusal :=
  commit s .memoryFault
    ((Memory.writeBlock s.mem (s.ea 0) (s.regsUpTo x)).map
      (fun m => { s.advance with mem := m, I := s.indexAfter increments x }))

/-- LD [I], Vx (R144): I is unchanged (log entry 6). -/
def execStore (x : RegIx) (s : State) : Host.Outcome State Fault Refusal := storeBlock Config.memIncrementsI x s

/-- LOAD under either setting of MEM_INCREMENTS_I (R145, R146). -/
def loadBlock (increments : Bool) (x : RegIx) (s : State) : Host.Outcome State Fault Refusal :=
  commit s .memoryFault
    ((Memory.readBlock s.mem (s.ea 0) (x.val + 1)).map
      (fun bs => { s.advance with V := setRegsFrom s.V 0 bs, I := s.indexAfter increments x }))

/-- LD Vx, [I] (R145): I is unchanged (log entry 6). -/
def execLoad (x : RegIx) (s : State) : Host.Outcome State Fault Refusal := loadBlock Config.memIncrementsI x s

end Sys2Proof.Machine
end

