-- ==== Sys2Proof/Machine/KeysTimers.lean ====
section
/-! DEFINITION. Keys and timer access (45_keys_and_timer_access.md). -/

namespace Sys2Proof.Machine

/-- SKP Vx (R160): the whole byte is the key index. -/
def execSkp (x : RegIx) (s : State) : Host.Outcome State Fault Refusal :=
  commit s .memoryFault ((s.keyRead (s.reg x).toNat).map (fun pressed => s.advance.skipIf pressed))

/-- SKNP Vx (R161). -/
def execSknp (x : RegIx) (s : State) : Host.Outcome State Fault Refusal :=
  commit s .memoryFault ((s.keyRead (s.reg x).toNat).map (fun pressed => s.advance.skipIf (!pressed)))

/-- LD Vx, K (R162): with no key pressed the pc goes back to this instruction. -/
def execWaitkey (x : RegIx) (s : State) : Host.Outcome State Fault Refusal :=
  match s.lowestKey with
  | some k => .next (s.advance.setReg x (BitVec.ofNat 8 k.val))
  | none => .next s.advance.rewind

/-- LD Vx, DT (R163). -/
def execLdVxDt (x : RegIx) (s : State) : Host.Outcome State Fault Refusal := .next (s.advance.setReg x s.dt)

/-- LD DT, Vx (R164). -/
def execLdDtVx (x : RegIx) (s : State) : Host.Outcome State Fault Refusal :=
  .next { s.advance with dt := s.reg x }

/-- LD ST, Vx (R165): signals nothing by itself. -/
def execLdStVx (x : RegIx) (s : State) : Host.Outcome State Fault Refusal :=
  .next { s.advance with st := s.reg x }

end Sys2Proof.Machine
end

