-- ==== Sys2Proof/Machine/Commands.lean ====
section
/-! DEFINITION. The commands of the host (47_host_commands.md): what each does to the state, and what it replies. -/

namespace Sys2Proof.Machine

/-- The body of a TICK that is not halted (R90): fetch, decode, execute. The fetch-time advance (R92) is the first thing
every meaning does, so that `s` is still the state in which the command arrived when something raises (R96, R209). The
checks come in the order of R207. -/
def runTick (s : State) : Host.Outcome State Fault Refusal :=
  match s.fetch with
  | none => .next (s.raise .memoryFault)
  | some op =>
    match decodeWord op with
    | none => .next (s.raise (.invalidOpcode op))
    | some i => exec i s

/-- TICK(rnd) (R90): nothing while halted (R211). -/
def tick (rnd : Byte) (s : State) : Host.Outcome State Fault Refusal :=
  if s.halted then .next s else runTick { s with host := { s.host with rnd := rnd } }

/-- A timer counts down and stays at 0 (R171, R172). -/
def decay (t : Byte) : Byte := if t = 0#8 then 0#8 else t - 1#8

/-- TICK_TIMERS (R170): both timers decay, each by its own rule; nothing while halted (R175). -/
def tickTimers (s : State) : State :=
  if s.halted then s else { s with dt := decay s.dt, st := decay s.st }

/-- KEYPRESS(index, pressed) (R183): one key set; an index above 15 raises MemoryFault. -/
def keypress (index : Nat) (pressed : Bool) (s : State) : State :=
  if s.halted then s
  else if h : index < 16 then { s with keys := s.keys.set index pressed h }
  else s.raise .memoryFault

/-- LOAD(bytes) (R185): LOADED is checked before the size (R207); the bytes go verbatim to 512 and up, and writing past
4095 raises MemoryFault with nothing written. -/
def loadRom (bytes : List Byte) (s : State) : State :=
  if s.halted then s
  else if s.loaded then s.raise .loadFault
  else
    match Memory.writeBlock s.mem 512 bytes with
    | none => s.raise .memoryFault
    | some m => { s with mem := m, loaded := true }

/-- What a command does (R182). DISPLAY changes nothing (R186). -/
def perform (c : Command) (s : State) : Host.Outcome State Fault Refusal :=
  match c with
  | .reset => .next s.restart
  | .load bytes => .next (loadRom bytes s)
  | .tick rnd => tick rnd s
  | .tickTimers => .next (tickTimers s)
  | .keypress index pressed => .next (keypress index pressed s)
  | .display => .next s

/-- What the host gets back from a command (R182). -/
inductive Reply where
  /-- The command has no output. -/
  | nothing
  /-- TICK_TIMERS: the buzzer bit (R173). -/
  | buzzer (on : Bool)
  /-- DISPLAY: the pixel bits (R186). -/
  | pixels (bits : Display)
deriving DecidableEq, Repr

/-- The reply of a command that arrives in state `s`. The buzzer is sampled before the decrement and is 0 while halted
(R170, R173, R175); DISPLAY is answered while halted too (R186). A reply is not latched (log entry 9). -/
def reply (c : Command) (s : State) : Reply :=
  match c with
  | .tickTimers => .buzzer (!s.halted && s.st == 1#8)
  | .display => .pixels s.display
  | .reset | .load _ | .tick _ | .keypress _ _ => .nothing

/-- A command from the free value, and the count of choices advanced (R180, log entry 3). -/
def State.freshCommand (s : State) : Command × State :=
  (Config.hostCommand s.host.draws, { s with host := { s.host with draws := s.host.draws + 1 } })

/-- The next command of the host (R180): the oldest in the inbox, or, where none is pending, whichever the host chooses: the
block fixes no order, no ratio and no pace (R174, R181; log entry 3). -/
def nextCommand (s : State) : Command × State :=
  match s.host.inbox with
  | [] => s.freshCommand
  | c :: cs => (c, { s with host := { s.host with inbox := cs } })

end Sys2Proof.Machine
end

