-- ==== Sys2Proof/Machine/Step.lean ====
section
/-! DEFINITION. One step of the machine is one command of the host (R180). -/

namespace Sys2Proof.Machine

/-- One step: the next command of the host, performed. -/
def step (s : State) : Host.Outcome State Fault Refusal := perform (nextCommand s).1 (nextCommand s).2

/-- The host's question: `s` with the instruction whose bits are `w` (bit 0 the least significant of its one word) where
`step` fetches next. It stands for the LOAD of a program (log entry 8). -/
def State.withFetchWord (s : State) (nbits w : Nat) : State := s.placeWord (BitVec.ofNat 16 (w % 2 ^ nbits))

end Sys2Proof.Machine
end

