-- ==== Sys2Proof/Safety.lean ====
section
/-! DEFINITION. The terms claims are made in: what is left unchanged, the invariant of the block, when an instruction
faults, and which pixels a sprite covers. -/

namespace Sys2Proof.Machine

/-! ### What a step leaves unchanged -/

/-- The pieces of state, one for each field of State. -/
inductive Part where
  | V | pc | I | sp | stack | keys | dt | st | display | mem | fault | loaded | host
deriving DecidableEq, Repr

/-- One piece is the same before (`s`) and after (`t`). Registers, slots, keys, pixels and memory are compared as they
are read: one register, one byte at a time. -/
def Part.same (p : Part) (s t : State) : Prop :=
  match p with
  | .V => ∀ r, t.reg r = s.reg r
  | .pc => t.pc = s.pc
  | .I => t.I = s.I
  | .sp => t.sp = s.sp
  | .stack => ∀ k : Fin 16, t.stack.get k = s.stack.get k
  | .keys => ∀ k : Fin 16, t.keys.get k = s.keys.get k
  | .dt => t.dt = s.dt
  | .st => t.st = s.st
  | .display => ∀ i, t.pixel i = s.pixel i
  | .mem => ∀ a, t.byte a = s.byte a
  | .fault => t.fault = s.fault
  | .loaded => t.loaded = s.loaded
  | .host => t.host = s.host

/-- Everything but the listed pieces is the same in `s` and `t`: the frame of an instruction. -/
def UnchangedBut (changed : List Part) (s t : State) : Prop := ∀ p, p ∉ changed → p.same s t

/-- The registers outside `changed` are the same. -/
def OtherRegsSame (changed : List RegIx) (s t : State) : Prop := ∀ r, r ∉ changed → t.reg r = s.reg r

/-- The block (everything but the model's own host side) is the same. -/
def SameBlock (s t : State) : Prop := t = { s with host := t.host }

/-- A 16-bit opcode word, written as a number, decodes to the instruction. -/
def WordIs (op : Nat) (i : Instr) : Prop := decodeWord (BitVec.ofNat 16 op) = some i

/-! ### The invariant -/

/-- The pc never exceeds 4350, what JP_V0 can make of 255 + 4095 (R25). -/
def PcInRange (s : State) : Prop := s.pc.toNat ≤ 4350

/-- Every return address held is one a fetched CALL pushed: at most 4096 (R25, R103). -/
def ReturnsInRange (s : State) : Prop := ∀ k : Fin 16, k.val < s.sp.val → (s.stack.get k).toNat ≤ 4096

/-- What every step keeps: pc and return addresses in range, memory in canonical form. -/
def BlockInv (s : State) : Prop := PcInRange s ∧ ReturnsInRange s ∧ Memory.wf s.mem

/-! ### When an instruction faults -/

/-- The fault an instruction raises in execute, from the tables of R202, R203 and R206: `none` where it completes. -/
def executeFault (i : Instr) (s : State) : Option Fault :=
  match i with
  | .ret => if s.sp.val = 0 then some .stackFault else none
  | .call _ => if s.sp.val = 16 then some .stackFault else none
  | .drw _ _ n => if 1 ≤ n ∧ 4096 ≤ s.I.toNat + n - 1 then some .memoryFault else none
  | .bcd _ => if 4096 ≤ s.I.toNat + 2 then some .memoryFault else none
  | .store x | .load x => if 4096 ≤ s.I.toNat + x.val then some .memoryFault else none
  | .skp x | .sknp x => if 15 < (s.reg x).toNat then some .memoryFault else none
  | .nop | .cls | .jp _ | .seImm _ _ | .sneImm _ _ | .seReg _ _ | .ldImm _ _ | .addImm _ _ | .ldReg _ _
  | .or _ _ | .and _ _ | .xor _ _ | .addReg _ _ | .sub _ _ | .shr _ _ | .subn _ _ | .shl _ _ | .sneReg _ _
  | .ldI _ | .jpV0 _ | .rnd _ _ | .ldVxDt _ | .waitkey _ | .ldDtVx _ | .ldStVx _ | .addI _ | .ldF _ => none

/-! ### Which state an instruction may change -/

/-- The pieces of state an instruction may change, from the tables of R22, R24, R52 and R206: its destinations, the pc,
and the FAULT latch where it can raise. -/
def mayChange (i : Instr) : List Part :=
  match i with
  | .nop | .jp _ | .jpV0 _ | .seImm _ _ | .sneImm _ _ | .seReg _ _ | .sneReg _ _ => [.pc]
  | .cls => [.pc, .display]
  | .ret => [.pc, .sp, .fault]
  | .call _ => [.pc, .sp, .stack, .fault]
  | .ldImm _ _ | .addImm _ _ | .ldReg _ _ | .or _ _ | .and _ _ | .xor _ _ | .addReg _ _ | .sub _ _ | .shr _ _
  | .subn _ _ | .shl _ _ | .rnd _ _ | .ldVxDt _ | .waitkey _ => [.pc, .V]
  | .ldI _ | .addI _ | .ldF _ => [.pc, .I]
  | .drw _ _ _ => [.pc, .V, .display, .fault]
  | .skp _ | .sknp _ => [.pc, .fault]
  | .ldDtVx _ => [.pc, .dt]
  | .ldStVx _ => [.pc, .st]
  | .bcd _ | .store _ => [.pc, .mem, .fault]
  | .load _ => [.pc, .V, .fault]

/-- Whether an instruction may write register `r`: its named destination, V[0..x] for LOAD, and VF for the six
instructions of R22's table. -/
def mayWriteReg (i : Instr) (r : RegIx) : Prop :=
  match i with
  | .ldImm x _ | .addImm x _ | .ldReg x _ | .or x _ | .and x _ | .xor x _ | .rnd x _ | .ldVxDt x | .waitkey x => r = x
  | .addReg x _ | .sub x _ | .shr x _ | .subn x _ | .shl x _ => r = x ∨ r = VF
  | .drw _ _ _ => r = VF
  | .load x => r ≤ x
  | .nop | .cls | .ret | .jp _ | .call _ | .seImm _ _ | .sneImm _ _ | .seReg _ _ | .sneReg _ _ | .ldI _ | .jpV0 _
  | .skp _ | .sknp _ | .ldDtVx _ | .ldStVx _ | .addI _ | .ldF _ | .bcd _ | .store _ => False

/-- The eleven instructions that can change the pc other than by the advance (R109). -/
def controlsPc (i : Instr) : Bool :=
  match i with
  | .ret | .jp _ | .call _ | .jpV0 _ | .seImm _ _ | .sneImm _ _ | .seReg _ _ | .sneReg _ _ | .skp _ | .sknp _
  | .waitkey _ => true
  | .nop | .cls | .ldImm _ _ | .addImm _ _ | .ldReg _ _ | .or _ _ | .and _ _ | .xor _ _ | .addReg _ _ | .sub _ _
  | .shr _ _ | .subn _ _ | .shl _ _ | .ldI _ | .rnd _ _ | .drw _ _ _ | .ldVxDt _ | .ldDtVx _ | .ldStVx _ | .addI _
  | .ldF _ | .bcd _ | .store _ | .load _ => false

/-! ### Two runs side by side -/

/-- The state with another byte carried by the TICK in progress (R184). -/
def State.withRnd (s : State) (r : Byte) : State := { s with host := { s.host with rnd := r } }

/-- The two states agree but for the call-stack slots at or above sp (R28). -/
def SameLive (s t : State) : Prop :=
  t = { s with stack := t.stack } ∧ ∀ k : Fin 16, k.val < s.sp.val → t.stack.get k = s.stack.get k

/-! ### Sequences of commands -/

/-- The state after the commands, performed in this order (R181). -/
def performAll : List Command → State → State
  | [], s => s
  | c :: cs, s =>
    match perform c s with
    | .next t => performAll cs t
    | _ => s

/-! ### Sprites -/

/-- Some 1 bit of the `n`-row sprite at `mem[I]` lands on column `px`, row `py` when it is drawn at (ox, oy) (R151). -/
def SpriteCovers (s : State) (ox oy n px py : Nat) : Prop :=
  ∃ r c, r < n ∧ c < 8 ∧ (oy + r) % 32 = py ∧ (ox + c) % 64 = px ∧
    (s.byte (s.I.toNat + r)).getLsbD (7 - c) = true

end Sys2Proof.Machine
end

