-- ==== Sys2Proof/Certificates/Slice0/Obligations.lean ====
section
/-! DEFINITION. The statements for the provers, from the numbered rules of spec/. In all of them `s` is the state in which
a command or an instruction arrives and `t` the next state; a pc written `s.pc + 2` is the fetch-time advance of R92. -/

open Sys2Proof Sys2Proof.Machine

/-! ### Encoding -/

/-- Decoding the bytes of an encoded well-formed instruction gives it back, with every operand at every value and the
bytes after it untouched (30_encoding.md). -/
def Obligations.DecodeOfEncodeIsTheInstruction : Prop :=
  ∀ (i : Instr) (rest : List Byte), i.wellFormed = true → decode (encodeBytes i ++ rest) = .ok (i, rest)

/-- Every word that decodes is the word of the instruction it decodes to, and that instruction is well formed. -/
def Obligations.EncodeOfDecodeIsTheWord : Prop :=
  ∀ (op : Word) (i : Instr), decodeWord op = some i → i.wellFormed = true ∧ encode i = op

/-- R75: there are 35 rows, and the decoder, which walks the map family by family (R76), reads an opcode word as the
instruction of a row exactly when `op & mask == match`. -/
def Obligations.DecoderReadsTheOpcodeTable : Prop :=
  opcodeRows.length = 35 ∧
  ∀ (op : Word) (row : OpcodeRow), row ∈ opcodeRows →
    (op &&& row.mask = row.value ↔ ∃ i, decodeWord op = some i ∧ i.mnemonic = row.mnemonic)

/-- R77 (the spec derives it): no opcode word matches two rows, and a word decodes exactly when it matches one. -/
def Obligations.OpcodeRowsAreDisjoint : Prop :=
  (∀ (op : Word) (p q : OpcodeRow), p ∈ opcodeRows → q ∈ opcodeRows →
    p.matchesWord op = true → q.matchesWord op = true → p = q) ∧
  (∀ op : Word, (decodeWord op).isSome = true ↔ ∃ p ∈ opcodeRows, p.matchesWord op = true)

/-- R78: the words that match no row are exactly the listed ones, they have no instruction, every other word has one, and a
TICK that fetches an illegal word latches InvalidOpcode with the whole word. -/
def Obligations.IllegalWordsRaiseInvalidOpcode : Prop :=
  (∀ w : Nat, w < 65536 →
    ((∀ row ∈ opcodeRows, BitVec.ofNat 16 w &&& row.mask ≠ row.value) ↔ decodeWord (BitVec.ofNat 16 w) = none) ∧
    (decodeWord (BitVec.ofNat 16 w) = none ↔
      (w < 0x1000 ∧ w ≠ 0x0000 ∧ w ≠ 0x00E0 ∧ w ≠ 0x00EE) ∨
      ((w / 4096 = 5 ∨ w / 4096 = 9) ∧ w % 16 ≠ 0) ∨
      (w / 4096 = 8 ∧ w % 16 ∈ [8, 9, 0xA, 0xB, 0xC, 0xD, 0xF]) ∨
      (w / 4096 = 0xE ∧ w % 256 ∉ [0x9E, 0xA1]) ∨
      (w / 4096 = 0xF ∧ w % 256 ∉ [0x07, 0x0A, 0x15, 0x18, 0x1E, 0x29, 0x33, 0x55, 0x65]))) ∧
  (∀ (s : State) (rnd : Byte) (op : Word), s.fault = none → s.fetch = some op → decodeWord op = none →
    ∃ t, tick rnd s = .next t ∧ t.fault = some (.invalidOpcode op))

/-- A few words read by hand from the encodings of 30_encoding.md. -/
def Obligations.HandEncodedWordsDecode : Prop :=
  WordIs 0x00E0 .cls ∧ WordIs 0x1204 (.jp 0x204) ∧ WordIs 0x4A10 (.sneImm 10 0x10) ∧
  WordIs 0x8124 (.addReg 1 2) ∧ WordIs 0x81A6 (.shr 1 10) ∧ WordIs 0xD012 (.drw 0 1 2) ∧
  WordIs 0xE2A1 (.sknp 2) ∧ WordIs 0xFF65 (.load 15) ∧ decodeWord 0x8008 = none

/-! ### The TICK frame -/

/-- R54: the opcode word is `(mem[pc] << 8) | mem[pc + 1]`; and after `load([b0, b1])` a fetch at 512 returns
`(b0 << 8) | b1`. -/
def Obligations.FetchIsBigEndian : Prop :=
  (∀ s : State, s.pc.toNat ≤ 4094 →
    ∃ op, s.fetch = some op ∧ op.toNat = 256 * (s.byte s.pc.toNat).toNat + (s.byte (s.pc.toNat + 1)).toNat) ∧
  (∀ (s : State) (b0 b1 : Byte), s.fault = none → s.loaded = false → s.pc = 512#16 →
    ∃ op, (loadRom [b0, b1] s).fetch = some op ∧ op.toNat = 256 * b0.toNat + b1.toNat)

/-- A TICK at a pc above 4094 latches MemoryFault and changes nothing else of the block, the pc included. That a TICK
does so is R91; the state after a fault is the spec's decision D5 (log entry 4). -/
def Obligations.FetchOutsideMemoryFaults : Prop :=
  ∀ (s : State) (rnd : Byte), s.fault = none → 4094 < s.pc.toNat →
    ∃ t, tick rnd s = .next t ∧ t.fault = some .memoryFault ∧ UnchangedBut [.fault, .host] s t

/-- Where the two bytes at the pc decode to `i`, a TICK is `exec i` on the state that carries the TICK's byte, and so is a
step whose oldest pending command is that TICK. A step with something pending performs the oldest command, one with nothing
pending whichever command the host chooses. The inbox and the free choice are the model's own (log entry 3). -/
def Obligations.StepRunsTheDecodedInstruction : Prop :=
  (∀ (s : State) (i : Instr) (rest : List Byte), s.fault = none → s.pc.toNat ≤ 4094 →
    decode [s.byte s.pc.toNat, s.byte (s.pc.toNat + 1)] = .ok (i, rest) →
      (∀ rnd, tick rnd s = exec i { s with host := { s.host with rnd := rnd } }) ∧
      (∀ rnd cs, s.host.inbox = .tick rnd :: cs →
        step s = exec i { s with host := { inbox := cs, rnd := rnd, draws := s.host.draws } })) ∧
  (∀ (s : State) (c : Command) (cs : List Command), s.host.inbox = c :: cs →
    step s = perform c { s with host := { s.host with inbox := cs } }) ∧
  (∀ s : State, s.host.inbox = [] →
    step s = perform (Config.hostCommand s.host.draws) { s with host := { s.host with draws := s.host.draws + 1 } })

/-- The word placed by withFetchWord is what the very next step runs, on a state that differs only where the placing
needs it (log entry 8). -/
def Obligations.PlacedWordRunsNext : Prop :=
  ∀ (s : State) (w : Nat) (i : Instr), decodeTableWord 16 w = some i →
    ∃ u, step (s.withFetchWord 16 w) = exec i u ∧ u.fault = none ∧
      u.pc = (if s.pc.toNat ≤ 4094 then s.pc else 0x200#16) ∧
      (∀ a, a ≠ u.pc.toNat → a ≠ u.pc.toNat + 1 → u.byte a = s.byte a) ∧
      UnchangedBut [.pc, .mem, .fault, .host] s u

/-- R109's list (the spec derives it): an instruction outside it, where it does not fault, leaves the pc at the next
instruction; where it faults, nothing but FAULT changes (decision D5, log entry 4). -/
def Obligations.OnlyListedInstructionsMoveThePc : Prop :=
  ∀ (i : Instr) (s t : State), s.fault = none → controlsPc i = false → exec i s = .next t →
    (t.fault = none ∧ t.pc = s.pc + 2#16) ∨ (t.fault ≠ none ∧ t = { s with fault := t.fault })

/-! ### Control flow -/

/-- R100: NOP does nothing but advance; no other 0NNN word is a no-op (all but 00E0 and 00EE are illegal); two zero bytes
are a NOP up to address 4094, after which the fetch faults; memory that nothing has written is zero from 80 on. -/
def Obligations.NopOnlyAdvances : Prop :=
  WordIs 0x0000 .nop ∧
  (∀ s : State, ∃ t, exec .nop s = .next t ∧ t.pc = s.pc + 2#16 ∧ UnchangedBut [.pc] s t) ∧
  (∀ w : Nat, w < 0x1000 → w ≠ 0x0000 → w ≠ 0x00E0 → w ≠ 0x00EE → decodeWord (BitVec.ofNat 16 w) = none) ∧
  (∀ (s : State) (a : Nat), s.mem = [] → 80 ≤ a → s.byte a = 0#8) ∧
  (∀ (s : State) (rnd : Byte), s.fault = none → s.pc.toNat ≤ 4094 →
    s.byte s.pc.toNat = 0#8 → s.byte (s.pc.toNat + 1) = 0#8 →
    ∃ t, tick rnd s = .next t ∧ t.pc = s.pc + 2#16 ∧ UnchangedBut [.pc, .host] s t) ∧
  (∀ (s : State) (rnd : Byte), s.fault = none → 4094 < s.pc.toNat →
    ∃ t, tick rnd s = .next t ∧ t.fault = some .memoryFault)

/-- RET (R101): the popped value goes to the pc as it is, the vacated slot keeps its value; with an empty stack StackFault
is latched. That nothing else changes then is decision D5 (log entry 4). -/
def Obligations.RetPopsTheReturnAddress : Prop :=
  WordIs 0x00EE .ret ∧
  (∀ (s : State) (k : Fin 16), s.sp.val = k.val + 1 →
    ∃ t, exec .ret s = .next t ∧ t.pc = s.stack.get k ∧ t.sp.val = k.val ∧ UnchangedBut [.pc, .sp] s t) ∧
  (∀ s : State, s.sp.val = 0 → exec .ret s = .next { s with fault := some .stackFault })

/-- R102: the pc becomes `nnn`, any 12-bit target; the JP does not fault, a fetch at a target above 4094 does. -/
def Obligations.JpGoesToTheAddress : Prop :=
  (∀ a : Nat, a < 4096 → WordIs (0x1000 + a) (.jp (BitVec.ofNat 16 a))) ∧
  (∀ (nnn : Word) (s : State), ∃ t, exec (.jp nnn) s = .next t ∧ t.pc = nnn ∧ UnchangedBut [.pc] s t ∧
    (4094 < nnn.toNat → t.fetch = none))

/-- CALL (R103): the advanced pc is pushed at the slot the old sp names; with 16 held StackFault is latched. That nothing
else changes then is decision D5 (log entry 4). -/
def Obligations.CallPushesTheNextAddress : Prop :=
  (∀ a : Nat, a < 4096 → WordIs (0x2000 + a) (.call (BitVec.ofNat 16 a))) ∧
  (∀ (nnn : Word) (s : State) (k : Fin 16), s.sp.val = k.val →
    ∃ t, exec (.call nnn) s = .next t ∧ t.pc = nnn ∧ t.sp.val = k.val + 1 ∧ t.stack.get k = s.pc + 2#16 ∧
      (∀ j : Fin 16, j ≠ k → t.stack.get j = s.stack.get j) ∧ UnchangedBut [.pc, .sp, .stack] s t) ∧
  (∀ (nnn : Word) (s : State), s.sp.val = 16 → exec (.call nnn) s = .next { s with fault := some .stackFault })

/-- R104, R105: SE and SNE with an immediate step over exactly 2 more bytes when their condition holds, whatever the
skipped word is. -/
def Obligations.SkipsOnAnImmediate : Prop :=
  (∀ (x : RegIx) (nn : Byte), WordIs (0x3000 + 256 * x.val + nn.toNat) (.seImm x nn) ∧
    WordIs (0x4000 + 256 * x.val + nn.toNat) (.sneImm x nn)) ∧
  (∀ (x : RegIx) (nn : Byte) (s : State), ∃ t, exec (.seImm x nn) s = .next t ∧ UnchangedBut [.pc] s t ∧
    t.pc = if (s.reg x).toNat = nn.toNat then s.pc + 4#16 else s.pc + 2#16) ∧
  (∀ (x : RegIx) (nn : Byte) (s : State), ∃ t, exec (.sneImm x nn) s = .next t ∧ UnchangedBut [.pc] s t ∧
    t.pc = if (s.reg x).toNat = nn.toNat then s.pc + 2#16 else s.pc + 4#16)

/-- R106, R107: SE and SNE on two registers; 5XYn and 9XYn with n other than 0 are illegal. -/
def Obligations.SkipsOnTwoRegisters : Prop :=
  (∀ x y : RegIx, WordIs (0x5000 + 256 * x.val + 16 * y.val) (.seReg x y) ∧
    WordIs (0x9000 + 256 * x.val + 16 * y.val) (.sneReg x y)) ∧
  (∀ (x y : RegIx) (n : Nat), 1 ≤ n → n < 16 →
    decodeWord (BitVec.ofNat 16 (0x5000 + 256 * x.val + 16 * y.val + n)) = none ∧
    decodeWord (BitVec.ofNat 16 (0x9000 + 256 * x.val + 16 * y.val + n)) = none) ∧
  (∀ (x y : RegIx) (s : State), ∃ t, exec (.seReg x y) s = .next t ∧ UnchangedBut [.pc] s t ∧
    t.pc = if (s.reg x).toNat = (s.reg y).toNat then s.pc + 4#16 else s.pc + 2#16) ∧
  (∀ (x y : RegIx) (s : State), ∃ t, exec (.sneReg x y) s = .next t ∧ UnchangedBut [.pc] s t ∧
    t.pc = if (s.reg x).toNat = (s.reg y).toNat then s.pc + 2#16 else s.pc + 4#16)

/-- R108: the pc becomes V[0] + nnn, at most 4350 and not reduced modulo 4096; the next fetch faults on a sum above 4094. -/
def Obligations.JpV0AddsRegisterZero : Prop :=
  (∀ a : Nat, a < 4096 → WordIs (0xB000 + a) (.jpV0 (BitVec.ofNat 16 a))) ∧
  (∀ (a : Nat) (s : State), a < 4096 →
    ∃ t, exec (.jpV0 (BitVec.ofNat 16 a)) s = .next t ∧ t.pc.toNat = (s.reg 0).toNat + a ∧ t.pc.toNat ≤ 4350 ∧
      UnchangedBut [.pc] s t ∧ (4095 ≤ (s.reg 0).toNat + a → t.fetch = none))

/-! ### Register load, arithmetic, logic, shift, random -/

/-- R120, R122: V[x] takes the immediate, or V[y]; VF only as the named destination. -/
def Obligations.LoadsOfARegister : Prop :=
  (∀ (x : RegIx) (nn : Byte), WordIs (0x6000 + 256 * x.val + nn.toNat) (.ldImm x nn)) ∧
  (∀ x y : RegIx, WordIs (0x8000 + 256 * x.val + 16 * y.val) (.ldReg x y)) ∧
  (∀ (x : RegIx) (nn : Byte) (s : State), ∃ t, exec (.ldImm x nn) s = .next t ∧ t.reg x = nn ∧
    t.pc = s.pc + 2#16 ∧ OtherRegsSame [x] s t ∧ UnchangedBut [.pc, .V] s t) ∧
  (∀ (x y : RegIx) (s : State), ∃ t, exec (.ldReg x y) s = .next t ∧ t.reg x = s.reg y ∧
    t.pc = s.pc + 2#16 ∧ OtherRegsSame [x] s t ∧ UnchangedBut [.pc, .V] s t)

/-- R121: the sum wraps modulo 256 and no flag is written. -/
def Obligations.AddImmediateWrapsWithoutFlag : Prop :=
  (∀ (x : RegIx) (nn : Byte), WordIs (0x7000 + 256 * x.val + nn.toNat) (.addImm x nn)) ∧
  (∀ (x : RegIx) (nn : Byte) (s : State), ∃ t, exec (.addImm x nn) s = .next t ∧
    (t.reg x).toNat = ((s.reg x).toNat + nn.toNat) % 256 ∧
    t.pc = s.pc + 2#16 ∧ OtherRegsSame [x] s t ∧ UnchangedBut [.pc, .V] s t)

/-- R123, R124, R125: OR, AND and XOR bit by bit; VF is not written unless x is 15. -/
def Obligations.LogicIsBitwiseWithoutFlag : Prop :=
  (∀ x y : RegIx, WordIs (0x8001 + 256 * x.val + 16 * y.val) (.or x y) ∧
    WordIs (0x8002 + 256 * x.val + 16 * y.val) (.and x y) ∧
    WordIs (0x8003 + 256 * x.val + 16 * y.val) (.xor x y)) ∧
  (∀ (x y : RegIx) (s : State),
    (∃ t, exec (.or x y) s = .next t ∧
      (∀ k, (t.reg x).getLsbD k = ((s.reg x).getLsbD k || (s.reg y).getLsbD k)) ∧
      t.pc = s.pc + 2#16 ∧ OtherRegsSame [x] s t ∧ UnchangedBut [.pc, .V] s t) ∧
    (∃ t, exec (.and x y) s = .next t ∧
      (∀ k, (t.reg x).getLsbD k = ((s.reg x).getLsbD k && (s.reg y).getLsbD k)) ∧
      t.pc = s.pc + 2#16 ∧ OtherRegsSame [x] s t ∧ UnchangedBut [.pc, .V] s t) ∧
    (∃ t, exec (.xor x y) s = .next t ∧
      (∀ k, (t.reg x).getLsbD k = ((s.reg x).getLsbD k != (s.reg y).getLsbD k)) ∧
      t.pc = s.pc + 2#16 ∧ OtherRegsSame [x] s t ∧ UnchangedBut [.pc, .V] s t))

/-- R127: the sum modulo 256, then VF is 1 on carry and 0 otherwise; with x = 15 the flag is what stays. -/
def Obligations.AddRegisterSetsCarry : Prop :=
  (∀ x y : RegIx, WordIs (0x8004 + 256 * x.val + 16 * y.val) (.addReg x y)) ∧
  (∀ (x y : RegIx) (s : State), ∃ t, exec (.addReg x y) s = .next t ∧
    (x ≠ VF → (t.reg x).toNat = ((s.reg x).toNat + (s.reg y).toNat) % 256) ∧
    (t.reg VF).toNat = (if (s.reg x).toNat + (s.reg y).toNat > 255 then 1 else 0) ∧
    t.pc = s.pc + 2#16 ∧ OtherRegsSame [x, VF] s t ∧ UnchangedBut [.pc, .V] s t)

/-- R128: V[x] - V[y] modulo 256, then VF is 0 on borrow and 1 otherwise; with x = 15 the flag is what stays. -/
def Obligations.SubSetsNotBorrow : Prop :=
  (∀ x y : RegIx, WordIs (0x8005 + 256 * x.val + 16 * y.val) (.sub x y)) ∧
  (∀ (x y : RegIx) (s : State), ∃ t, exec (.sub x y) s = .next t ∧
    (x ≠ VF → ((t.reg x).toNat : Int) = (((s.reg x).toNat : Int) - (s.reg y).toNat) % 256) ∧
    (t.reg VF).toNat = (if (s.reg x).toNat < (s.reg y).toNat then 0 else 1) ∧
    t.pc = s.pc + 2#16 ∧ OtherRegsSame [x, VF] s t ∧ UnchangedBut [.pc, .V] s t)

/-- R130: V[y] - V[x] modulo 256, then VF is 0 on borrow and 1 otherwise; with x = 15 the flag is what stays. -/
def Obligations.SubnSetsNotBorrow : Prop :=
  (∀ x y : RegIx, WordIs (0x8007 + 256 * x.val + 16 * y.val) (.subn x y)) ∧
  (∀ (x y : RegIx) (s : State), ∃ t, exec (.subn x y) s = .next t ∧
    (x ≠ VF → ((t.reg x).toNat : Int) = (((s.reg y).toNat : Int) - (s.reg x).toNat) % 256) ∧
    (t.reg VF).toNat = (if (s.reg y).toNat < (s.reg x).toNat then 0 else 1) ∧
    t.pc = s.pc + 2#16 ∧ OtherRegsSame [x, VF] s t ∧ UnchangedBut [.pc, .V] s t)

/-- SHR and SHL for x other than 15: VF is the bit shifted out, V[x] is halved or doubled, V[y] plays no part. With x = 15
the shift acts on the flag just written, so VF ends 0, or 2 times its old bit 7: that case is the spec's decision D8 (log
entry 5). That the nibble y is ignored is its decision D13 (log entry 10). -/
def Obligations.ShiftsSetTheBitShiftedOut : Prop :=
  (∀ x y : RegIx, WordIs (0x8006 + 256 * x.val + 16 * y.val) (.shr x y) ∧
    WordIs (0x800E + 256 * x.val + 16 * y.val) (.shl x y)) ∧
  (∀ (x y : RegIx) (s : State), ∃ t, exec (.shr x y) s = .next t ∧
    (x ≠ VF → (t.reg x).toNat = (s.reg x).toNat / 2 ∧ (t.reg VF).toNat = (s.reg x).toNat % 2) ∧
    (x = VF → (t.reg VF).toNat = 0) ∧
    t.pc = s.pc + 2#16 ∧ OtherRegsSame [x, VF] s t ∧ UnchangedBut [.pc, .V] s t) ∧
  (∀ (x y : RegIx) (s : State), ∃ t, exec (.shl x y) s = .next t ∧
    (x ≠ VF → (t.reg x).toNat = 2 * (s.reg x).toNat % 256 ∧ (t.reg VF).toNat = (s.reg x).toNat / 128) ∧
    (x = VF → (t.reg VF).toNat = 2 * ((s.reg VF).toNat / 128)) ∧
    t.pc = s.pc + 2#16 ∧ OtherRegsSame [x, VF] s t ∧ UnchangedBut [.pc, .V] s t)

/-- R132: V[x] is the byte the TICK carries, masked by nn, for every such byte. -/
def Obligations.RndMasksTheFreeByte : Prop :=
  (∀ (x : RegIx) (nn : Byte), WordIs (0xC000 + 256 * x.val + nn.toNat) (.rnd x nn)) ∧
  (∀ (x : RegIx) (nn r : Byte) (s : State), ∃ t, exec (.rnd x nn) (s.withRnd r) = .next t ∧
    (∀ k, (t.reg x).getLsbD k = (r.getLsbD k && nn.getLsbD k)) ∧
    t.pc = s.pc + 2#16 ∧ OtherRegsSame [x] (s.withRnd r) t ∧ UnchangedBut [.pc, .V] (s.withRnd r) t)

/-! ### The index register and memory -/

/-- R140, R141, R142: I takes nnn; I plus V[x] modulo 65536 with no flag; 5 times the whole byte V[x]. -/
def Obligations.IndexRegisterLoads : Prop :=
  (∀ a : Nat, a < 4096 → WordIs (0xA000 + a) (.ldI (BitVec.ofNat 16 a))) ∧
  (∀ x : RegIx, WordIs (0xF01E + 256 * x.val) (.addI x) ∧ WordIs (0xF029 + 256 * x.val) (.ldF x)) ∧
  (∀ (nnn : Word) (s : State), ∃ t, exec (.ldI nnn) s = .next t ∧ t.I = nnn ∧ t.pc = s.pc + 2#16 ∧
    UnchangedBut [.pc, .I] s t) ∧
  (∀ (x : RegIx) (s : State), ∃ t, exec (.addI x) s = .next t ∧
    t.I.toNat = (s.I.toNat + (s.reg x).toNat) % 65536 ∧ t.pc = s.pc + 2#16 ∧ UnchangedBut [.pc, .I] s t) ∧
  (∀ (x : RegIx) (s : State), ∃ t, exec (.ldF x) s = .next t ∧
    t.I.toNat = 5 * (s.reg x).toNat ∧ t.pc = s.pc + 2#16 ∧ UnchangedBut [.pc, .I] s t)

/-- BCD (R143): the three decimal digits at I, I + 1, I + 2, every other byte as before; MemoryFault where I + 2 is
outside. That no byte is written then is decision D5 (log entry 4). -/
def Obligations.BcdStoresThreeDigits : Prop :=
  (∀ x : RegIx, WordIs (0xF033 + 256 * x.val) (.bcd x)) ∧
  (∀ (x : RegIx) (s : State), s.ea 2 < 4096 →
    ∃ t, exec (.bcd x) s = .next t ∧
      100 * (t.byte (s.ea 0)).toNat + 10 * (t.byte (s.ea 1)).toNat + (t.byte (s.ea 2)).toNat = (s.reg x).toNat ∧
      (t.byte (s.ea 0)).toNat ≤ 2 ∧ (t.byte (s.ea 1)).toNat ≤ 9 ∧ (t.byte (s.ea 2)).toNat ≤ 9 ∧
      (∀ a, a < s.ea 0 ∨ s.ea 2 < a → t.byte a = s.byte a) ∧
      t.pc = s.pc + 2#16 ∧ UnchangedBut [.pc, .mem] s t) ∧
  (∀ (x : RegIx) (s : State), 4096 ≤ s.ea 2 → exec (.bcd x) s = .next { s with fault := some .memoryFault })

/-- STORE (R144): V[0..x] at I and up, every other byte as before, I unchanged; MemoryFault where I + x is outside. That
no byte is written then is decision D5 (log entry 4), that I is unchanged decision D12 (log entry 6). -/
def Obligations.StoreWritesRegistersUpToX : Prop :=
  (∀ x : RegIx, WordIs (0xF055 + 256 * x.val) (.store x)) ∧
  (∀ (x : RegIx) (s : State), s.ea x.val < 4096 →
    ∃ t, exec (.store x) s = .next t ∧ (∀ k : RegIx, k ≤ x → t.byte (s.ea k.val) = s.reg k) ∧
      (∀ a, a < s.ea 0 ∨ s.ea x.val < a → t.byte a = s.byte a) ∧
      t.pc = s.pc + 2#16 ∧ UnchangedBut [.pc, .mem] s t) ∧
  (∀ (x : RegIx) (s : State), 4096 ≤ s.ea x.val → exec (.store x) s = .next { s with fault := some .memoryFault })

/-- LOAD (R145): V[0..x] from I and up, the registers above x as before, I and memory unchanged; MemoryFault where I + x is
outside. That no register is written then is decision D5 (log entry 4), that I is unchanged decision D12 (log entry 6). -/
def Obligations.LoadReadsRegistersUpToX : Prop :=
  (∀ x : RegIx, WordIs (0xF065 + 256 * x.val) (.load x)) ∧
  (∀ (x : RegIx) (s : State), s.ea x.val < 4096 →
    ∃ t, exec (.load x) s = .next t ∧ (∀ k : RegIx, k ≤ x → t.reg k = s.byte (s.ea k.val)) ∧
      (∀ k : RegIx, x < k → t.reg k = s.reg k) ∧ t.pc = s.pc + 2#16 ∧ UnchangedBut [.pc, .V] s t) ∧
  (∀ (x : RegIx) (s : State), 4096 ≤ s.ea x.val → exec (.load x) s = .next { s with fault := some .memoryFault })

/-- The switch MEM_INCREMENTS_I (R7, R146, decision D12; log entry 6): the instructions are those of the switch at false, so
I is as before where they complete; turned on, STORE and LOAD would end with I advanced by x + 1 modulo 65536 and be the same
in everything else, and would fault in the same states. -/
def Obligations.IncrementSwitchTouchesOnlyTheIndex : Prop :=
  (∀ (x : RegIx) (s : State),
    exec (.store x) s = storeBlock false x s ∧ exec (.load x) s = loadBlock false x s) ∧
  (∀ (x : RegIx) (s t : State), s.ea x.val < 4096 →
    (exec (.store x) s = .next t → t.I = s.I ∧
      storeBlock true x s = .next { t with I := s.I + BitVec.ofNat 16 (x.val + 1) }) ∧
    (exec (.load x) s = .next t → t.I = s.I ∧
      loadBlock true x s = .next { t with I := s.I + BitVec.ofNat 16 (x.val + 1) })) ∧
  (∀ (x : RegIx) (s : State), 4096 ≤ s.ea x.val →
    storeBlock true x s = exec (.store x) s ∧ loadBlock true x s = exec (.load x) s)

/-- R62 (the spec derives it): two registers stored over the next instruction are what the next fetch returns. -/
def Obligations.StoredCodeIsFetchedNext : Prop :=
  ∀ (x : RegIx) (s t : State), 1 ≤ x.val → s.pc.toNat + 2 = s.I.toNat → s.ea x.val < 4096 → exec (.store x) s = .next t →
    ∃ op, t.fetch = some op ∧ op.toNat = 256 * (s.reg 0).toNat + (s.reg 1).toNat

/-! ### The display -/

/-- R150: every pixel is cleared and VF is not written. -/
def Obligations.ClsClearsEveryPixel : Prop :=
  WordIs 0x00E0 .cls ∧
  (∀ s : State, ∃ t, exec .cls s = .next t ∧ (∀ i, i < 2048 → t.pixel i = false) ∧ t.pc = s.pc + 2#16 ∧
    UnchangedBut [.pc, .display] s t)

/-- DRW, pixel by pixel (R151, R152, R153): a pixel is flipped exactly where a 1 bit of the sprite lands on it, VF is 1
exactly when such a pixel was lit before, whatever order the loops take; the origin is read before VF is written; height 0
draws nothing and cannot fault; a sprite byte outside memory is MemoryFault. That nothing is drawn then is decision D5 (log
entry 4). -/
def Obligations.DrwFlipsWhatTheSpriteCovers : Prop :=
  (∀ (x y : RegIx) (n : Nat), n < 16 → WordIs (0xD000 + 256 * x.val + 16 * y.val + n) (.drw x y n)) ∧
  (∀ (x y : RegIx) (n : Nat) (s : State), n < 16 → n = 0 ∨ s.ea (n - 1) < 4096 →
    ∃ t, exec (.drw x y n) s = .next t ∧
      (∀ px py, px < 64 → py < 32 →
        (t.pixel (64 * py + px) ≠ s.pixel (64 * py + px) ↔
          SpriteCovers s (s.reg x).toNat (s.reg y).toNat n px py)) ∧
      ((t.reg VF).toNat = 1 ↔ ∃ px py, px < 64 ∧ py < 32 ∧ s.pixel (64 * py + px) = true ∧
        SpriteCovers s (s.reg x).toNat (s.reg y).toNat n px py) ∧
      (t.reg VF).toNat ≤ 1 ∧ t.pc = s.pc + 2#16 ∧ OtherRegsSame [VF] s t ∧ UnchangedBut [.pc, .V, .display] s t) ∧
  (∀ (x y : RegIx) (n : Nat) (s : State), 1 ≤ n → 4096 ≤ s.ea (n - 1) →
    exec (.drw x y n) s = .next { s with fault := some .memoryFault })

/-- R153 (the spec derives it): the same sprite drawn twice at the same origin (the second draw finds in V[x] and V[y] what
the first did) restores every pixel, and the second draw's VF says whether some 1 bit had landed on an unlit pixel. -/
def Obligations.DrawingTwiceRestoresThePixels : Prop :=
  ∀ (x y : RegIx) (n : Nat) (s t u : State), n < 16 → n = 0 ∨ s.ea (n - 1) < 4096 →
    exec (.drw x y n) s = .next t → t.reg x = s.reg x → t.reg y = s.reg y → exec (.drw x y n) t = .next u →
      (∀ i, i < 2048 → u.pixel i = s.pixel i) ∧
      ((u.reg VF).toNat = 1 ↔ ∃ px py, px < 64 ∧ py < 32 ∧ s.pixel (64 * py + px) = false ∧
        SpriteCovers s (s.reg x).toNat (s.reg y).toNat n px py)

/-! ### Keys and timer access -/

/-- SKP and SKNP (R160, R161): the level of key V[x], which the test does not clear; V[x] above 15 is MemoryFault. That
nothing else changes then is decision D5 (log entry 4). -/
def Obligations.KeySkipsReadTheLevel : Prop :=
  (∀ x : RegIx, WordIs (0xE09E + 256 * x.val) (.skp x) ∧ WordIs (0xE0A1 + 256 * x.val) (.sknp x)) ∧
  (∀ (x : RegIx) (s : State) (k : Fin 16), (s.reg x).toNat = k.val →
    (∃ t, exec (.skp x) s = .next t ∧ UnchangedBut [.pc] s t ∧
      t.pc = if s.keys.get k = true then s.pc + 4#16 else s.pc + 2#16) ∧
    (∃ t, exec (.sknp x) s = .next t ∧ UnchangedBut [.pc] s t ∧
      t.pc = if s.keys.get k = true then s.pc + 2#16 else s.pc + 4#16)) ∧
  (∀ (x : RegIx) (s : State), 15 < (s.reg x).toNat →
    exec (.skp x) s = .next { s with fault := some .memoryFault } ∧
    exec (.sknp x) s = .next { s with fault := some .memoryFault })

/-- R162: V[x] takes the least pressed key; with none pressed the instruction changes nothing at all, so that the next
TICK executes it again. -/
def Obligations.WaitkeyTakesTheLowestKey : Prop :=
  (∀ x : RegIx, WordIs (0xF00A + 256 * x.val) (.waitkey x)) ∧
  (∀ (x : RegIx) (s : State) (k : Fin 16), s.keys.get k = true → (∀ j, j < k → s.keys.get j = false) →
    ∃ t, exec (.waitkey x) s = .next t ∧ (t.reg x).toNat = k.val ∧ t.pc = s.pc + 2#16 ∧
      OtherRegsSame [x] s t ∧ UnchangedBut [.pc, .V] s t) ∧
  (∀ (x : RegIx) (s : State), (∀ k, s.keys.get k = false) → exec (.waitkey x) s = .next s)

/-- The timer moves (R163, R164, R165): V[x] takes DT, DT or ST takes V[x]; no instruction reads ST (two runs that differ only
in ST differ only in ST afterwards); a TICK has no output, so nothing is signalled. That the buzzer signal is a reply of the
command is decision D9 (log entry 9). -/
def Obligations.TimerMoves : Prop :=
  (∀ x : RegIx, WordIs (0xF007 + 256 * x.val) (.ldVxDt x) ∧ WordIs (0xF015 + 256 * x.val) (.ldDtVx x) ∧
    WordIs (0xF018 + 256 * x.val) (.ldStVx x)) ∧
  (∀ (x : RegIx) (s : State), ∃ t, exec (.ldVxDt x) s = .next t ∧ t.reg x = s.dt ∧ t.pc = s.pc + 2#16 ∧
    OtherRegsSame [x] s t ∧ UnchangedBut [.pc, .V] s t) ∧
  (∀ (x : RegIx) (s : State), ∃ t, exec (.ldDtVx x) s = .next t ∧ t.dt = s.reg x ∧ t.pc = s.pc + 2#16 ∧
    UnchangedBut [.pc, .dt] s t) ∧
  (∀ (x : RegIx) (s : State), ∃ t, exec (.ldStVx x) s = .next t ∧ t.st = s.reg x ∧ t.pc = s.pc + 2#16 ∧
    UnchangedBut [.pc, .st] s t) ∧
  (∀ (i : Instr) (s t : State) (v : Byte), exec i s = .next t →
    ∃ t', exec i { s with st := v } = .next t' ∧ UnchangedBut [.st] t t') ∧
  (∀ (s : State) (r : Byte), reply (.tick r) s = .nothing)

/-! ### Faults and the halted state -/

/-- R203, R206: an instruction that arrives with FAULT clear latches exactly the fault the tables give it, in exactly the
states they name, and all others complete with FAULT clear; no instruction is refused or stops the machine. Any instruction
can be the victim of a fetch outside memory before it is known. -/
def Obligations.FaultsHaveExactlyTheListedCauses : Prop :=
  (∀ (i : Instr) (s : State), s.fault = none → ∃ t, exec i s = .next t ∧ t.fault = executeFault i s) ∧
  (∀ (s : State) (rnd : Byte), s.fault = none → 4094 < s.pc.toNat →
    ∃ t, tick rnd s = .next t ∧ t.fault = some .memoryFault)

/-- Faults are precise (the spec's decision D5, log entry 4): a step that latches a fault changes nothing else of the
block, whichever command it was. -/
def Obligations.AFaultingStepCommitsNothing : Prop :=
  ∀ s t : State, s.fault = none → step s = .next t → t.fault ≠ none →
    t = { s with fault := t.fault, host := t.host }

/-- The halted state (the spec's decisions D3 and D20, log entry 7): no command but RESET changes anything, the buzzer
stays 0, DISPLAY and FAULT still answer; RESET clears FAULT. -/
def Obligations.OnlyResetLeavesTheHaltedState : Prop :=
  ∀ s : State, s.fault ≠ none →
    (∀ c : Command, c ≠ .reset → ∃ t, perform c s = .next t ∧ SameBlock s t) ∧
    (∃ t, perform .reset s = .next t ∧ t.fault = none) ∧
    reply .tickTimers s = .buzzer false ∧
    (∃ bits, reply .display s = .pixels bits ∧ ∀ i, displayBit bits i = s.pixel i)

/-- The FAULT output (R187; the codes are R201's, which are the spec's decision D6, log entry 15): kind and info together
tell which fault is latched, and a clear latch is kind 0. -/
def Obligations.FaultOutputTellsTheLatch : Prop :=
  (∀ f g : Option Fault, faultKind f = faultKind g → faultInfo f = faultInfo g → f = g) ∧
  (∀ s : State, faultKind s.fault = 0#3 ↔ s.halted = false)

/-- No step is refused and no step stops the machine: every step has a next state, and a step that finds FAULT set leaves
the block as it is unless the command is RESET (log entries 4 and 7). -/
def Obligations.EveryStepHasANextState : Prop :=
  ∀ s : State, ∃ t, step s = .next t ∧ (s.fault ≠ none → (nextCommand s).1 ≠ .reset → SameBlock s t)

/-! ### Whole-machine rules -/

/-- Every instruction changes only the pieces of state that R22, R24, R52 and R206 let it reach: keys, LOADED and the
host's side never; the display only by CLS and DRW, the stack only by CALL, memory only by BCD and STORE, and so on. That a
faulting instruction stays inside this frame rests on decision D5 (log entry 4), that I is outside the frames of BCD, STORE,
LOAD and DRW on decision D12 (R146; log entry 6). -/
def Obligations.InstructionsReachOnlyTheirState : Prop :=
  ∀ (i : Instr) (s t : State), exec i s = .next t → UnchangedBut (mayChange i) s t

/-- R20, R22: a register that an instruction neither names as a destination nor writes implicitly keeps its value; in
particular VF is written implicitly by the six instructions of R22's table only. -/
def Obligations.RegistersChangeOnlyWhereWritten : Prop :=
  ∀ (i : Instr) (s t : State) (r : RegIx), exec i s = .next t → ¬ mayWriteReg i r → t.reg r = s.reg r

/-- The byte a TICK carries is ignored by every instruction but RND (R184, whose free input is the spec's decision D10; log
entry 2): two runs that differ only in it end in states that differ only in it. -/
def Obligations.OnlyRndReadsTheRandomByte : Prop :=
  ∀ (i : Instr) (s t : State) (r : Byte), (∀ x nn, i ≠ .rnd x nn) → exec i s = .next t →
    exec i (s.withRnd r) = .next (t.withRnd r)

/-- R28 (the spec derives it): the slots at or above sp are unobservable. Two states that differ only there go, by any
instruction, to states that differ only there. -/
def Obligations.StaleSlotsAreUnobservable : Prop :=
  ∀ (i : Instr) (s t s' : State), SameLive s t → exec i s = .next s' → ∃ t', exec i t = .next t' ∧ SameLive s' t'

/-- R188 (the spec's decision D17, log entry 23): a jump to its own address idles; a TICK of it changes nothing of the block. -/
def Obligations.SelfJumpIdles : Prop :=
  ∀ (s : State) (r : Byte), s.fault = none → s.pc.toNat ≤ 4094 →
    s.fetch = some (BitVec.ofNat 16 (0x1000 + s.pc.toNat)) → ∃ t, tick r s = .next t ∧ SameBlock s t

/-! ### The invariant -/

/-- R25 and the canonical form of memory: the pc stays at most 4350 and return addresses at most 4096, so the 16-bit wraps
of R17 and R92 are unreachable; every step keeps this, whatever command it performs. -/
def Obligations.StepKeepsTheInvariant : Prop :=
  ∀ s t : State, BlockInv s → step s = .next t → BlockInv t

/-- The reset state meets the invariant. -/
def Obligations.ResetMeetsTheInvariant : Prop := BlockInv State.reset

/-- R25 (the spec derives it), R92: a fetch that succeeds is at 4094 or below, so the advance and a skip never wrap: after the
instruction that was fetched the pc of any completed one outside JP, CALL, RET and JP_V0 is at most 4 further. -/
def Obligations.PcArithmeticNeverWraps : Prop :=
  ∀ (s t : State) (op : Word) (i : Instr), s.fetch = some op → decodeWord op = some i → exec i s = .next t →
    (∀ nnn, i ≠ .jp nnn ∧ i ≠ .call nnn ∧ i ≠ .jpV0 nnn) → i ≠ .ret →
    s.pc.toNat ≤ 4094 ∧ s.pc.toNat ≤ t.pc.toNat ∧ t.pc.toNat ≤ s.pc.toNat + 4

/-! ### The commands of the host -/

/-- RESET from any state, and power-on (70_reset_and_hazards.md section 1): every register, slot, key, timer and pixel 0,
the pc 512, the font at 0..79 and 0 in the rest of memory, both latches clear. That RESET clears the latches is decision D18
(log entry 22), the zeros of I, sp and the pixels the spec derives (log entry 11), the font's bytes are log entry 1: the
statement names the font as the constant it is and no byte of it. -/
def Obligations.ResetInstallsEveryResetValue : Prop :=
  ∀ s : State, ∃ t, perform .reset s = .next t ∧ SameBlock State.reset t ∧ t.host = s.host ∧
    (∀ r, t.reg r = 0#8) ∧ t.pc.toNat = 512 ∧ t.I = 0#16 ∧ t.sp = 0 ∧ (∀ k : Fin 16, t.stack.get k = 0#16) ∧
    (∀ k : Fin 16, t.keys.get k = false) ∧ t.dt = 0#8 ∧ t.st = 0#8 ∧ (∀ i, t.pixel i = false) ∧
    (∀ a, a < 80 → t.byte a = Config.font.getD a 0#8) ∧ (∀ a, 80 ≤ a → t.byte a = 0#8) ∧
    t.fault = none ∧ t.loaded = false

/-- R232: RESET applied twice is RESET applied once, and what it leaves does not depend on the block's state before. -/
def Obligations.ResetIsIdempotent : Prop :=
  (∀ s t u : State, perform .reset s = .next t → perform .reset t = .next u → u = t) ∧
  (∀ s s' t t' : State, s.host = s'.host → perform .reset s = .next t → perform .reset s' = .next t' → t = t')

/-- TICK_TIMERS while not halted (46_timer_decay.md): each timer goes down by 1 and stays at 0, nothing else changes, and
the buzzer is 1 exactly when ST was 1. That the buzzer is the command's reply is decision D9 (log entry 9). -/
def Obligations.TimersDecayToZero : Prop :=
  ∀ s : State, s.fault = none →
    ∃ t, perform .tickTimers s = .next t ∧ t.dt.toNat = s.dt.toNat - 1 ∧ t.st.toNat = s.st.toNat - 1 ∧
      UnchangedBut [.dt, .st] s t ∧ reply .tickTimers s = .buzzer (decide (s.st.toNat = 1))

/-- R176 (the spec derives it): a sound timer holding v >= 1 gives its single buzzer on the v-th TICK_TIMERS, one holding 0
gives none. -/
def Obligations.BuzzerSoundsOnceAtExpiry : Prop :=
  ∀ (s : State) (k : Nat), s.fault = none →
    reply .tickTimers (tickTimers^[k] s) = .buzzer (decide (s.st.toNat = k + 1))

/-- KEYPRESS while not halted (47_host_commands.md): one key set, the other fifteen and everything else as before; an index
above 15 is MemoryFault with nothing else changed (decisions D19 and D5, log entries 4 and 7). -/
def Obligations.KeypressSetsOneKey : Prop :=
  (∀ (s : State) (k : Fin 16) (pressed : Bool), s.fault = none →
    ∃ t, perform (.keypress k.val pressed) s = .next t ∧ t.keys.get k = pressed ∧
      (∀ j : Fin 16, j ≠ k → t.keys.get j = s.keys.get j) ∧ UnchangedBut [.keys] s t) ∧
  (∀ (s : State) (index : Nat) (pressed : Bool), s.fault = none → 15 < index →
    perform (.keypress index pressed) s = .next { s with fault := some .memoryFault })

/-- LOAD(bytes) while not halted (47_host_commands.md, decision D4; log entry 7): the first LOAD copies a ROM of at most 3584
bytes verbatim to 512 and up and sets LOADED; a second one latches LoadFault whatever its size; an oversize first one
latches MemoryFault; a faulting LOAD changes nothing else. -/
def Obligations.LoadCopiesTheRomOnce : Prop :=
  (∀ (s : State) (bytes : List Byte), s.fault = none → s.loaded = false → bytes.length ≤ 3584 →
    ∃ t, perform (.load bytes) s = .next t ∧ t.loaded = true ∧
      (∀ k, k < bytes.length → t.byte (512 + k) = bytes.getD k 0#8) ∧
      (∀ a, a < 512 ∨ 512 + bytes.length ≤ a → t.byte a = s.byte a) ∧ UnchangedBut [.mem, .loaded] s t) ∧
  (∀ (s : State) (bytes : List Byte), s.fault = none → s.loaded = true →
    perform (.load bytes) s = .next { s with fault := some .loadFault }) ∧
  (∀ (s : State) (bytes : List Byte), s.fault = none → s.loaded = false → 3584 < bytes.length →
    perform (.load bytes) s = .next { s with fault := some .memoryFault })

/-- DISPLAY replies the pixels, column px of row py being index 64 * py + px, and changes nothing, halted or not (decision D20, log entry 9); no other
command but TICK_TIMERS has an output. -/
def Obligations.DisplayRepliesThePixels : Prop :=
  (∀ s : State, perform .display s = .next s ∧
    ∃ bits, reply .display s = .pixels bits ∧ ∀ (px : Nat) (py : Fin 32), px < 64 →
      (bits.get py).getLsbD px = s.pixel (64 * py.val + px)) ∧
  (∀ (s : State) (c : Command), c ≠ .display → c ≠ .tickTimers → reply c s = .nothing)

/-- R174: TICK does not decay a timer and nothing else does but TICK_TIMERS: where a command changes DT or ST it is RESET,
TICK_TIMERS, or a TICK of the one instruction that writes that timer. -/
def Obligations.TimersChangeOnlyByTheirCauses : Prop :=
  (∀ (c : Command) (s t : State), perform c s = .next t → t.dt ≠ s.dt →
    c = .reset ∨ c = .tickTimers ∨
      ∃ rnd op x, c = .tick rnd ∧ s.fetch = some op ∧ decodeWord op = some (.ldDtVx x) ∧ t.dt = s.reg x) ∧
  (∀ (c : Command) (s t : State), perform c s = .next t → t.st ≠ s.st →
    c = .reset ∨ c = .tickTimers ∨
      ∃ rnd op x, c = .tick rnd ∧ s.fetch = some op ∧ decodeWord op = some (.ldStVx x) ∧ t.st = s.reg x)

/-- Every order and number of commands is a run (R174, R181): with `cs` pending, as many steps perform exactly those
commands, in that order, and leave what was pending after them. The inbox is the model's own (log entry 3). -/
def Obligations.EveryOrderOfCommandsRuns : Prop :=
  ∀ (cs rest : List Command) (s : State), s.host.inbox = cs ++ rest →
    ∃ t, core.run cs.length s = .next t ∧ t.host.inbox = rest ∧ SameBlock (performAll cs s) t
end

