-- ==== Sys2Proof/Laws/Decode.lean ====
section
/-! SUPPORT. The fields of an opcode word as digits of its number, and the bytes and patterns of encoded words. -/

namespace Sys2Proof

/-! ### Fields as base-16 digits -/

theorem fieldFam_eq (op : Word) : fieldFam op = op.toNat / 4096 := by
  have := op.isLt
  simp only [fieldFam, BitVec.extractLsb'_toNat, Nat.shiftRight_eq_div_pow]
  omega

theorem fieldX_val (op : Word) : (fieldX op).val = op.toNat / 256 % 16 := by
  simp only [fieldX, BitVec.val_toFin, BitVec.extractLsb'_toNat, Nat.shiftRight_eq_div_pow]

theorem fieldY_val (op : Word) : (fieldY op).val = op.toNat / 16 % 16 := by
  simp only [fieldY, BitVec.val_toFin, BitVec.extractLsb'_toNat, Nat.shiftRight_eq_div_pow]

theorem fieldN_eq (op : Word) : fieldN op = op.toNat % 16 := by
  simp only [fieldN, BitVec.extractLsb'_toNat, Nat.shiftRight_eq_div_pow]
  omega

theorem fieldNN_toNat (op : Word) : (fieldNN op).toNat = op.toNat % 256 := by
  simp only [fieldNN, BitVec.extractLsb'_toNat, Nat.shiftRight_eq_div_pow]
  omega

theorem fieldNNN_toNat (op : Word) : (fieldNNN op).toNat = op.toNat % 4096 := by
  simp only [fieldNNN, BitVec.toNat_setWidth, BitVec.extractLsb'_toNat, Nat.shiftRight_eq_div_pow]
  omega

/-! ### Encoded words as numbers -/

theorem wordA_toNat (fam : Nat) (nnn : Word) (h : fam < 16) :
    (wordA fam nnn).toNat = 4096 * fam + nnn.toNat % 4096 := by
  simp only [wordA, BitVec.toNat_append, BitVec.toNat_ofNat, BitVec.toNat_setWidth]
  rw [← Nat.shiftLeft_add_eq_or_of_lt (by omega), Nat.shiftLeft_eq]
  omega

theorem wordXI_toNat (fam : Nat) (x : RegIx) (nn : Byte) (h : fam < 16) :
    (wordXI fam x nn).toNat = 4096 * fam + 256 * x.val + nn.toNat := by
  have hn := nn.isLt
  have hx := x.isLt
  simp only [wordXI, BitVec.toNat_append, BitVec.toNat_ofNat]
  rw [← Nat.shiftLeft_add_eq_or_of_lt (by omega), ← Nat.shiftLeft_add_eq_or_of_lt (by omega),
    Nat.shiftLeft_eq, Nat.shiftLeft_eq]
  omega

theorem wordXYN_toNat (fam : Nat) (x y : RegIx) (n : Nat) (h : fam < 16) :
    (wordXYN fam x y n).toNat = 4096 * fam + 256 * x.val + 16 * y.val + n % 16 := by
  have hx := x.isLt
  have hy := y.isLt
  simp only [wordXYN, BitVec.toNat_append, BitVec.toNat_ofNat]
  rw [← Nat.shiftLeft_add_eq_or_of_lt (by omega), ← Nat.shiftLeft_add_eq_or_of_lt (by omega),
    ← Nat.shiftLeft_add_eq_or_of_lt (by omega), Nat.shiftLeft_eq, Nat.shiftLeft_eq, Nat.shiftLeft_eq]
  omega

/-- The two bytes of a word, put together again, are the word (R54). -/
theorem wordOfBytes_bytesOfWord (op : Word) :
    wordOfBytes (op.extractLsb' 8 8) (op.extractLsb' 0 8) = op := by
  apply BitVec.eq_of_toNat_eq
  have := op.isLt
  simp only [wordOfBytes, BitVec.toNat_append, BitVec.extractLsb'_toNat, Nat.shiftRight_eq_div_pow]
  rw [← Nat.shiftLeft_add_eq_or_of_lt (by omega), Nat.shiftLeft_eq]
  omega

/-- Decoding the bytes of a word is decoding the word. -/
theorem decode_bytesOfWord (op : Word) (rest : List Byte) :
    decode (bytesOfWord op ++ rest) =
      match decodeWord op with
      | some i => .ok (i, rest)
      | none => .error (.invalidOpcode op) := by
  cases h : decodeWord op <;> simp [bytesOfWord, decode, wordOfBytes_bytesOfWord, h]

/-! ### Patterns -/

theorem wordA_and (fam : Nat) (nnn : Word) : wordA fam nnn &&& (0xF000 : Word) = BitVec.ofNat 4 fam ++ 0#12 := by
  have h : (0xF000 : Word) = 0xF#4 ++ 0#12 := by decide
  unfold wordA
  rw [h, BitVec.and_append, BitVec.and_zero]
  congr 1
  exact BitVec.and_allOnes

theorem wordXI_and (fam : Nat) (x : RegIx) (nn : Byte) :
    wordXI fam x nn &&& (0xF000 : Word) = BitVec.ofNat 4 fam ++ 0#4 ++ 0#8 := by
  have h : (0xF000 : Word) = 0xF#4 ++ 0#4 ++ 0#8 := by decide
  unfold wordXI
  rw [h, BitVec.and_append, BitVec.and_append, BitVec.and_zero, BitVec.and_zero]
  congr 2
  exact BitVec.and_allOnes

theorem wordXI_and_sub (fam : Nat) (x : RegIx) (nn : Byte) :
    wordXI fam x nn &&& (0xF0FF : Word) = BitVec.ofNat 4 fam ++ 0#4 ++ nn := by
  have h : (0xF0FF : Word) = 0xF#4 ++ 0#4 ++ 0xFF#8 := by decide
  unfold wordXI
  rw [h, BitVec.and_append, BitVec.and_append, BitVec.and_zero]
  congr 2
  · exact BitVec.and_allOnes
  · exact BitVec.and_allOnes

theorem wordXYN_and_sub (fam : Nat) (x y : RegIx) (n : Nat) :
    wordXYN fam x y n &&& (0xF00F : Word) = BitVec.ofNat 4 fam ++ 0#4 ++ 0#4 ++ BitVec.ofNat 4 n := by
  have h : (0xF00F : Word) = 0xF#4 ++ 0#4 ++ 0#4 ++ 0xF#4 := by decide
  unfold wordXYN
  rw [h, BitVec.and_append, BitVec.and_append, BitVec.and_append, BitVec.and_zero, BitVec.and_zero]
  congr 2
  · congr 1
    exact BitVec.and_allOnes
  · exact BitVec.and_allOnes

theorem wordXYN_and (fam : Nat) (x y : RegIx) (n : Nat) :
    wordXYN fam x y n &&& (0xF000 : Word) = BitVec.ofNat 4 fam ++ 0#4 ++ 0#4 ++ 0#4 := by
  have h : (0xF000 : Word) = 0xF#4 ++ 0#4 ++ 0#4 ++ 0#4 := by decide
  unfold wordXYN
  rw [h, BitVec.and_append, BitVec.and_append, BitVec.and_append, BitVec.and_zero, BitVec.and_zero, BitVec.and_zero]
  congr 3
  exact BitVec.and_allOnes

end Sys2Proof
end

