-- ==== Sys2Proof/Laws/Memory.lean ====
section
/-! SUPPORT. What memory operations do: read after write, the canonical form kept, blocks of bytes. -/

namespace Sys2Proof.Machine

/-! ### One byte -/

theorem Memory.get_drop_ne (m : Memory) (a b : Nat) (h : b ≠ a) :
    Memory.get (Memory.drop m a) b = Memory.get m b := by
  induction m with
  | nil => rfl
  | cons c m ih =>
    obtain ⟨k, w⟩ := c
    by_cases hk : k = a
    · subst hk
      simpa [Memory.drop, Memory.get, h] using ih
    · by_cases hb : b = k
      · simp [Memory.drop, Memory.get, hk, hb]
      · simpa [Memory.drop, Memory.get, hk, hb] using ih

theorem Memory.get_drop_same (m : Memory) (a : Nat) : Memory.get (Memory.drop m a) a = resetByte a := by
  induction m with
  | nil => rfl
  | cons c m ih =>
    obtain ⟨k, w⟩ := c
    by_cases hk : k = a
    · subst hk
      simpa [Memory.drop] using ih
    · have : a ≠ k := fun h => hk h.symm
      simpa [Memory.drop, Memory.get, hk, this] using ih

theorem Memory.get_insert_same (m : Memory) (a : Nat) (v : Byte) (h : ∀ c ∈ m, c.1 ≠ a) :
    Memory.get (Memory.insert m a v) a = v := by
  induction m with
  | nil => simp [Memory.insert, Memory.get]
  | cons c m ih =>
    obtain ⟨k, w⟩ := c
    have hk : a ≠ k := fun e => h (k, w) (by simp) e.symm
    have ht := ih (fun c hc => h c (by simp [hc]))
    by_cases hl : a < k
    · simp [Memory.insert, Memory.get, hl]
    · simpa [Memory.insert, Memory.get, hl, hk] using ht

theorem Memory.get_insert_ne (m : Memory) (a b : Nat) (v : Byte) (h : b ≠ a) :
    Memory.get (Memory.insert m a v) b = Memory.get m b := by
  induction m with
  | nil => simp [Memory.insert, Memory.get, h]
  | cons c m ih =>
    obtain ⟨k, w⟩ := c
    by_cases hl : a < k
    · simp [Memory.insert, Memory.get, hl, h]
    · by_cases hb : b = k
      · simp [Memory.insert, Memory.get, hl, hb]
      · simpa [Memory.insert, Memory.get, hl, hb] using ih

/-- A read after a write: the byte written at its address, every other byte as before (R59). -/
theorem Memory.get_put (m : Memory) (a b : Nat) (v : Byte) :
    Memory.get (Memory.put m a v) b = if b = a then v else Memory.get m b := by
  unfold Memory.put
  by_cases hb : b = a
  · subst hb
    split
    · next hv => simp [hv, Memory.get_drop_same]
    · simp only [if_true]
      exact Memory.get_insert_same _ _ _ (fun c hc => by simpa using (List.mem_filter.mp hc).2)
  · split
    · simp [hb, Memory.get_drop_ne]
    · simp [hb, Memory.get_insert_ne, Memory.get_drop_ne]

/-! ### The canonical form -/

theorem Memory.wf_drop {m : Memory} (h : Memory.wf m) (a : Nat) : Memory.wf (Memory.drop m a) :=
  ⟨h.1.filter _, fun c hc => h.2 c (List.mem_filter.mp hc).1⟩

theorem Memory.mem_insert {m : Memory} {a : Nat} {v : Byte} {c : Host.Cell} (h : c ∈ Memory.insert m a v) :
    c = (a, v) ∨ c ∈ m := by
  induction m with
  | nil => simpa [Memory.insert] using h
  | cons d m ih =>
    obtain ⟨k, w⟩ := d
    by_cases hl : a < k
    · simpa [Memory.insert, hl] using h
    · simp only [Memory.insert, hl, if_false, List.mem_cons] at h
      rcases h with h | h
      · exact .inr (by simp [h])
      · exact (ih h).imp id (List.mem_cons_of_mem _)

theorem Memory.pairwise_insert {m : Memory} {a : Nat} {v : Byte}
    (h : m.Pairwise (fun c d => c.1 < d.1)) (ha : ∀ c ∈ m, c.1 ≠ a) :
    (Memory.insert m a v).Pairwise (fun c d => c.1 < d.1) := by
  induction m with
  | nil => simp [Memory.insert]
  | cons d m ih =>
    obtain ⟨k, w⟩ := d
    have hk : k ≠ a := ha (k, w) (by simp)
    rw [List.pairwise_cons] at h
    by_cases hl : a < k
    · simp only [Memory.insert, hl, if_true, List.pairwise_cons, List.mem_cons, forall_eq_or_imp]
      exact ⟨⟨trivial, fun c hc => Nat.lt_trans hl (h.1 c hc)⟩, h.1, h.2⟩
    · simp only [Memory.insert, hl, if_false, List.pairwise_cons]
      refine ⟨fun c hc => ?_, ih h.2 (fun c hc => ha c (by simp [hc]))⟩
      rcases Memory.mem_insert hc with rfl | hc
      · show k < a; omega
      · exact h.1 c hc

/-- A write to an address that exists keeps the canonical form. -/
theorem Memory.wf_put {m : Memory} (h : Memory.wf m) {a : Nat} (ha : a < 4096) (v : Byte) :
    Memory.wf (Memory.put m a v) := by
  unfold Memory.put
  split
  · exact Memory.wf_drop h a
  · next hv =>
    have hd := Memory.wf_drop h a
    refine ⟨Memory.pairwise_insert hd.1 (fun c hc => by simpa using (List.mem_filter.mp hc).2), fun c hc => ?_⟩
    rcases Memory.mem_insert hc with rfl | hc
    · exact ⟨ha, hv⟩
    · exact hd.2 c hc

theorem Memory.wf_write {m m' : Memory} {a : Nat} {v : Byte} (h : Memory.wf m)
    (hw : Memory.write m a v = some m') : Memory.wf m' := by
  unfold Memory.write at hw
  split at hw
  · next ha => cases hw; exact Memory.wf_put h ha v
  · cases hw

/-! ### Blocks -/

/-- When a block of writes goes through: nothing to write, or its last byte exists. -/
theorem Memory.writeBlock_isSome (m : Memory) (a : Nat) (bs : List Byte) :
    (Memory.writeBlock m a bs).isSome = true ↔ bs = [] ∨ a + bs.length ≤ 4096 := by
  induction bs generalizing m a with
  | nil => simp [Memory.writeBlock]
  | cons b bs ih =>
    by_cases ha : a < 4096
    · simp only [Memory.writeBlock, Memory.write, ha, if_true, ih, List.length_cons, reduceCtorEq, false_or]
      constructor
      · rintro (rfl | h)
        · simp; omega
        · omega
      · intro h; right; omega
    · simp only [Memory.writeBlock, Memory.write, ha, if_false, List.length_cons, reduceCtorEq, false_or,
        Option.isSome_none, Bool.false_eq_true, false_iff]
      omega

/-- What a block of writes leaves: byte `k` at `a + k`, every other address as before. -/
theorem Memory.get_writeBlock {m m' : Memory} {a : Nat} {bs : List Byte}
    (h : Memory.writeBlock m a bs = some m') (b : Nat) :
    Memory.get m' b = if a ≤ b ∧ b < a + bs.length then bs.getD (b - a) 0#8 else Memory.get m b := by
  induction bs generalizing m a with
  | nil =>
    simp only [Memory.writeBlock, Option.some.injEq] at h
    subst h
    have : ¬ (a ≤ b ∧ b < a + ([] : List Byte).length) := by simp
    rw [if_neg this]
  | cons v bs ih =>
    by_cases ha : a < 4096
    · simp only [Memory.writeBlock, Memory.write, ha, if_true] at h
      rw [ih h, Memory.get_put]
      simp only [List.length_cons]
      by_cases hb : b = a
      · subst hb
        simp
      · by_cases hr : a + 1 ≤ b ∧ b < a + 1 + bs.length
        · have h1 : a ≤ b ∧ b < a + (bs.length + 1) := by omega
          have h2 : b - a = (b - (a + 1)) + 1 := by omega
          rw [if_pos hr, if_pos h1, h2, List.getD_cons_succ]
        · have h1 : ¬ (a ≤ b ∧ b < a + (bs.length + 1)) := by omega
          rw [if_neg hr, if_neg h1, if_neg hb]
    · simp [Memory.writeBlock, Memory.write, ha] at h

theorem Memory.wf_writeBlock {m m' : Memory} {a : Nat} {bs : List Byte} (hm : Memory.wf m)
    (h : Memory.writeBlock m a bs = some m') : Memory.wf m' := by
  induction bs generalizing m a with
  | nil => simp only [Memory.writeBlock, Option.some.injEq] at h; exact h ▸ hm
  | cons v bs ih =>
    unfold Memory.writeBlock at h
    split at h
    · cases h
    · next m₁ hw => exact ih (Memory.wf_write hm hw) h

/-- A block of reads: the bytes in ascending order where the last one exists, MemoryFault elsewhere. -/
theorem Memory.readBlock_eq (m : Memory) (a n : Nat) :
    Memory.readBlock m a n =
      if n = 0 ∨ a + n ≤ 4096 then some ((List.range n).map (fun k => Memory.get m (a + k))) else none := by
  induction n generalizing a with
  | zero => simp [Memory.readBlock]
  | succ n ih =>
    by_cases ha : a < 4096
    · simp only [Memory.readBlock, Memory.read, ha, if_true, ih]
      by_cases hn : n = 0 ∨ a + 1 + n ≤ 4096
      · have h1 : n + 1 = 0 ∨ a + (n + 1) ≤ 4096 := by omega
        rw [if_pos hn, if_pos h1, List.range_succ_eq_map]
        simp [Function.comp_def, Nat.add_comm, Nat.add_left_comm]
      · have h1 : ¬ (n + 1 = 0 ∨ a + (n + 1) ≤ 4096) := by omega
        rw [if_neg hn, if_neg h1]
        rfl
    · have h1 : ¬ (n + 1 = 0 ∨ a + (n + 1) ≤ 4096) := by omega
      rw [if_neg h1]
      simp [Memory.readBlock, Memory.read, ha]

/-- Where a fetch answers, and what. -/
theorem State.fetch_eq (s : State) :
    s.fetch = if s.pc.toNat ≤ 4094 then some (wordOfBytes (s.byte s.pc.toNat) (s.byte (s.pc.toNat + 1))) else none := by
  unfold State.fetch Memory.read State.byte
  by_cases h : s.pc.toNat ≤ 4094
  · have h1 : s.pc.toNat < 4096 := by omega
    have h2 : s.pc.toNat + 1 < 4096 := by omega
    simp [h, h1, h2]
  · have h2 : ¬ s.pc.toNat + 1 < 4096 := by omega
    simp only [h, h2, if_false]
    split <;> simp_all

/-- An opcode word as the number its two bytes make (R54). -/
theorem wordOfBytes_toNat (hi lo : Byte) : (wordOfBytes hi lo).toNat = 256 * hi.toNat + lo.toNat := by
  have := lo.isLt
  simp only [wordOfBytes, BitVec.toNat_append]
  rw [← Nat.shiftLeft_add_eq_or_of_lt (by omega), Nat.shiftLeft_eq]
  omega

end Sys2Proof.Machine
end

