-- ==== Sys2Proof/Laws/State.lean ====
section
/-! SUPPORT. One lemma per field per named update of State, and what the views of a state say after one. -/

namespace Sys2Proof.Machine

/-! ### setReg -/

@[simp] theorem State.pc_setReg (s : State) (x : RegIx) (v : Byte) : (s.setReg x v).pc = s.pc := rfl
@[simp] theorem State.I_setReg (s : State) (x : RegIx) (v : Byte) : (s.setReg x v).I = s.I := rfl
@[simp] theorem State.sp_setReg (s : State) (x : RegIx) (v : Byte) : (s.setReg x v).sp = s.sp := rfl
@[simp] theorem State.stack_setReg (s : State) (x : RegIx) (v : Byte) : (s.setReg x v).stack = s.stack := rfl
@[simp] theorem State.keys_setReg (s : State) (x : RegIx) (v : Byte) : (s.setReg x v).keys = s.keys := rfl
@[simp] theorem State.dt_setReg (s : State) (x : RegIx) (v : Byte) : (s.setReg x v).dt = s.dt := rfl
@[simp] theorem State.st_setReg (s : State) (x : RegIx) (v : Byte) : (s.setReg x v).st = s.st := rfl
@[simp] theorem State.display_setReg (s : State) (x : RegIx) (v : Byte) : (s.setReg x v).display = s.display := rfl
@[simp] theorem State.mem_setReg (s : State) (x : RegIx) (v : Byte) : (s.setReg x v).mem = s.mem := rfl
@[simp] theorem State.fault_setReg (s : State) (x : RegIx) (v : Byte) : (s.setReg x v).fault = s.fault := rfl
@[simp] theorem State.loaded_setReg (s : State) (x : RegIx) (v : Byte) : (s.setReg x v).loaded = s.loaded := rfl
@[simp] theorem State.host_setReg (s : State) (x : RegIx) (v : Byte) : (s.setReg x v).host = s.host := rfl

/-! ### setPc -/

@[simp] theorem State.V_setPc (s : State) (a : Word) : (s.setPc a).V = s.V := rfl
@[simp] theorem State.pc_setPc (s : State) (a : Word) : (s.setPc a).pc = a := rfl
@[simp] theorem State.I_setPc (s : State) (a : Word) : (s.setPc a).I = s.I := rfl
@[simp] theorem State.sp_setPc (s : State) (a : Word) : (s.setPc a).sp = s.sp := rfl
@[simp] theorem State.stack_setPc (s : State) (a : Word) : (s.setPc a).stack = s.stack := rfl
@[simp] theorem State.keys_setPc (s : State) (a : Word) : (s.setPc a).keys = s.keys := rfl
@[simp] theorem State.dt_setPc (s : State) (a : Word) : (s.setPc a).dt = s.dt := rfl
@[simp] theorem State.st_setPc (s : State) (a : Word) : (s.setPc a).st = s.st := rfl
@[simp] theorem State.display_setPc (s : State) (a : Word) : (s.setPc a).display = s.display := rfl
@[simp] theorem State.mem_setPc (s : State) (a : Word) : (s.setPc a).mem = s.mem := rfl
@[simp] theorem State.fault_setPc (s : State) (a : Word) : (s.setPc a).fault = s.fault := rfl
@[simp] theorem State.loaded_setPc (s : State) (a : Word) : (s.setPc a).loaded = s.loaded := rfl
@[simp] theorem State.host_setPc (s : State) (a : Word) : (s.setPc a).host = s.host := rfl

/-! ### setI -/

@[simp] theorem State.V_setI (s : State) (v : Word) : (s.setI v).V = s.V := rfl
@[simp] theorem State.pc_setI (s : State) (v : Word) : (s.setI v).pc = s.pc := rfl
@[simp] theorem State.I_setI (s : State) (v : Word) : (s.setI v).I = v := rfl
@[simp] theorem State.sp_setI (s : State) (v : Word) : (s.setI v).sp = s.sp := rfl
@[simp] theorem State.stack_setI (s : State) (v : Word) : (s.setI v).stack = s.stack := rfl
@[simp] theorem State.keys_setI (s : State) (v : Word) : (s.setI v).keys = s.keys := rfl
@[simp] theorem State.dt_setI (s : State) (v : Word) : (s.setI v).dt = s.dt := rfl
@[simp] theorem State.st_setI (s : State) (v : Word) : (s.setI v).st = s.st := rfl
@[simp] theorem State.display_setI (s : State) (v : Word) : (s.setI v).display = s.display := rfl
@[simp] theorem State.mem_setI (s : State) (v : Word) : (s.setI v).mem = s.mem := rfl
@[simp] theorem State.fault_setI (s : State) (v : Word) : (s.setI v).fault = s.fault := rfl
@[simp] theorem State.loaded_setI (s : State) (v : Word) : (s.setI v).loaded = s.loaded := rfl
@[simp] theorem State.host_setI (s : State) (v : Word) : (s.setI v).host = s.host := rfl

/-! ### advance -/

@[simp] theorem State.V_advance (s : State) : (s.advance).V = s.V := rfl
@[simp] theorem State.pc_advance (s : State) : (s.advance).pc = s.pc + 2#16 := rfl
@[simp] theorem State.I_advance (s : State) : (s.advance).I = s.I := rfl
@[simp] theorem State.sp_advance (s : State) : (s.advance).sp = s.sp := rfl
@[simp] theorem State.stack_advance (s : State) : (s.advance).stack = s.stack := rfl
@[simp] theorem State.keys_advance (s : State) : (s.advance).keys = s.keys := rfl
@[simp] theorem State.dt_advance (s : State) : (s.advance).dt = s.dt := rfl
@[simp] theorem State.st_advance (s : State) : (s.advance).st = s.st := rfl
@[simp] theorem State.display_advance (s : State) : (s.advance).display = s.display := rfl
@[simp] theorem State.mem_advance (s : State) : (s.advance).mem = s.mem := rfl
@[simp] theorem State.fault_advance (s : State) : (s.advance).fault = s.fault := rfl
@[simp] theorem State.loaded_advance (s : State) : (s.advance).loaded = s.loaded := rfl
@[simp] theorem State.host_advance (s : State) : (s.advance).host = s.host := rfl

/-! ### skipIf -/

@[simp] theorem State.V_skipIf (s : State) (c : Bool) : (s.skipIf c).V = s.V := by cases c <;> rfl
@[simp] theorem State.pc_skipIf (s : State) (c : Bool) : (s.skipIf c).pc = if c then s.pc + 2#16 else s.pc := by cases c <;> rfl
@[simp] theorem State.I_skipIf (s : State) (c : Bool) : (s.skipIf c).I = s.I := by cases c <;> rfl
@[simp] theorem State.sp_skipIf (s : State) (c : Bool) : (s.skipIf c).sp = s.sp := by cases c <;> rfl
@[simp] theorem State.stack_skipIf (s : State) (c : Bool) : (s.skipIf c).stack = s.stack := by cases c <;> rfl
@[simp] theorem State.keys_skipIf (s : State) (c : Bool) : (s.skipIf c).keys = s.keys := by cases c <;> rfl
@[simp] theorem State.dt_skipIf (s : State) (c : Bool) : (s.skipIf c).dt = s.dt := by cases c <;> rfl
@[simp] theorem State.st_skipIf (s : State) (c : Bool) : (s.skipIf c).st = s.st := by cases c <;> rfl
@[simp] theorem State.display_skipIf (s : State) (c : Bool) : (s.skipIf c).display = s.display := by cases c <;> rfl
@[simp] theorem State.mem_skipIf (s : State) (c : Bool) : (s.skipIf c).mem = s.mem := by cases c <;> rfl
@[simp] theorem State.fault_skipIf (s : State) (c : Bool) : (s.skipIf c).fault = s.fault := by cases c <;> rfl
@[simp] theorem State.loaded_skipIf (s : State) (c : Bool) : (s.skipIf c).loaded = s.loaded := by cases c <;> rfl
@[simp] theorem State.host_skipIf (s : State) (c : Bool) : (s.skipIf c).host = s.host := by cases c <;> rfl

/-! ### rewind -/

@[simp] theorem State.V_rewind (s : State) : (s.rewind).V = s.V := rfl
@[simp] theorem State.pc_rewind (s : State) : (s.rewind).pc = s.pc - 2#16 := rfl
@[simp] theorem State.I_rewind (s : State) : (s.rewind).I = s.I := rfl
@[simp] theorem State.sp_rewind (s : State) : (s.rewind).sp = s.sp := rfl
@[simp] theorem State.stack_rewind (s : State) : (s.rewind).stack = s.stack := rfl
@[simp] theorem State.keys_rewind (s : State) : (s.rewind).keys = s.keys := rfl
@[simp] theorem State.dt_rewind (s : State) : (s.rewind).dt = s.dt := rfl
@[simp] theorem State.st_rewind (s : State) : (s.rewind).st = s.st := rfl
@[simp] theorem State.display_rewind (s : State) : (s.rewind).display = s.display := rfl
@[simp] theorem State.mem_rewind (s : State) : (s.rewind).mem = s.mem := rfl
@[simp] theorem State.fault_rewind (s : State) : (s.rewind).fault = s.fault := rfl
@[simp] theorem State.loaded_rewind (s : State) : (s.rewind).loaded = s.loaded := rfl
@[simp] theorem State.host_rewind (s : State) : (s.rewind).host = s.host := rfl

/-! ### raise -/

@[simp] theorem State.V_raise (s : State) (f : Fault) : (s.raise f).V = s.V := rfl
@[simp] theorem State.pc_raise (s : State) (f : Fault) : (s.raise f).pc = s.pc := rfl
@[simp] theorem State.I_raise (s : State) (f : Fault) : (s.raise f).I = s.I := rfl
@[simp] theorem State.sp_raise (s : State) (f : Fault) : (s.raise f).sp = s.sp := rfl
@[simp] theorem State.stack_raise (s : State) (f : Fault) : (s.raise f).stack = s.stack := rfl
@[simp] theorem State.keys_raise (s : State) (f : Fault) : (s.raise f).keys = s.keys := rfl
@[simp] theorem State.dt_raise (s : State) (f : Fault) : (s.raise f).dt = s.dt := rfl
@[simp] theorem State.st_raise (s : State) (f : Fault) : (s.raise f).st = s.st := rfl
@[simp] theorem State.display_raise (s : State) (f : Fault) : (s.raise f).display = s.display := rfl
@[simp] theorem State.mem_raise (s : State) (f : Fault) : (s.raise f).mem = s.mem := rfl
@[simp] theorem State.fault_raise (s : State) (f : Fault) : (s.raise f).fault = some f := rfl
@[simp] theorem State.loaded_raise (s : State) (f : Fault) : (s.raise f).loaded = s.loaded := rfl
@[simp] theorem State.host_raise (s : State) (f : Fault) : (s.raise f).host = s.host := rfl

/-! ### withRnd -/

@[simp] theorem State.V_withRnd (s : State) (r : Byte) : (s.withRnd r).V = s.V := rfl
@[simp] theorem State.pc_withRnd (s : State) (r : Byte) : (s.withRnd r).pc = s.pc := rfl
@[simp] theorem State.I_withRnd (s : State) (r : Byte) : (s.withRnd r).I = s.I := rfl
@[simp] theorem State.sp_withRnd (s : State) (r : Byte) : (s.withRnd r).sp = s.sp := rfl
@[simp] theorem State.stack_withRnd (s : State) (r : Byte) : (s.withRnd r).stack = s.stack := rfl
@[simp] theorem State.keys_withRnd (s : State) (r : Byte) : (s.withRnd r).keys = s.keys := rfl
@[simp] theorem State.dt_withRnd (s : State) (r : Byte) : (s.withRnd r).dt = s.dt := rfl
@[simp] theorem State.st_withRnd (s : State) (r : Byte) : (s.withRnd r).st = s.st := rfl
@[simp] theorem State.display_withRnd (s : State) (r : Byte) : (s.withRnd r).display = s.display := rfl
@[simp] theorem State.mem_withRnd (s : State) (r : Byte) : (s.withRnd r).mem = s.mem := rfl
@[simp] theorem State.fault_withRnd (s : State) (r : Byte) : (s.withRnd r).fault = s.fault := rfl
@[simp] theorem State.loaded_withRnd (s : State) (r : Byte) : (s.withRnd r).loaded = s.loaded := rfl
@[simp] theorem State.host_withRnd (s : State) (r : Byte) : (s.withRnd r).host = { s.host with rnd := r } := rfl

/-! ### The views -/

/-- V[r] after V[x] <- v. -/
theorem State.reg_setReg (s : State) (x r : RegIx) (v : Byte) :
    (s.setReg x v).reg r = if r = x then v else s.reg r := by
  simp only [State.reg, State.setReg, Vector.get_eq_getElem, Vector.getElem_set, Fin.ext_iff, eq_comm]

@[simp] theorem State.reg_setReg_same (s : State) (x : RegIx) (v : Byte) : (s.setReg x v).reg x = v := by
  simp [State.reg_setReg]

theorem State.reg_setReg_ne (s : State) (x r : RegIx) (v : Byte) (h : r ≠ x) :
    (s.setReg x v).reg r = s.reg r := by
  simp [State.reg_setReg, h]

@[simp] theorem State.reg_setPc (s : State) (a : Word) (r : RegIx) : (s.setPc a).reg r = s.reg r := rfl
@[simp] theorem State.reg_setI (s : State) (v : Word) (r : RegIx) : (s.setI v).reg r = s.reg r := rfl
@[simp] theorem State.reg_advance (s : State) (r : RegIx) : s.advance.reg r = s.reg r := rfl
@[simp] theorem State.reg_rewind (s : State) (r : RegIx) : s.rewind.reg r = s.reg r := rfl
@[simp] theorem State.reg_raise (s : State) (f : Fault) (r : RegIx) : (s.raise f).reg r = s.reg r := rfl

@[simp] theorem State.reg_withRnd (s : State) (r : Byte) (x : RegIx) : (s.withRnd r).reg x = s.reg x := rfl

@[simp] theorem State.reg_skipIf (s : State) (c : Bool) (r : RegIx) : (s.skipIf c).reg r = s.reg r := by
  cases c <;> rfl

@[simp] theorem State.byte_skipIf (s : State) (c : Bool) (a : Nat) : (s.skipIf c).byte a = s.byte a := by
  cases c <;> rfl

@[simp] theorem State.pixel_skipIf (s : State) (c : Bool) (i : Nat) : (s.skipIf c).pixel i = s.pixel i := by
  cases c <;> rfl

@[simp] theorem State.byte_advance (s : State) (a : Nat) : s.advance.byte a = s.byte a := rfl
@[simp] theorem State.pixel_advance (s : State) (i : Nat) : s.advance.pixel i = s.pixel i := rfl

/-- The pc after the advance and a skip. -/
theorem State.pc_advance_skipIf (s : State) (c : Bool) :
    (s.advance.skipIf c).pc = if c then s.pc + 4#16 else s.pc + 2#16 := by
  cases c
  · rfl
  · simp [BitVec.add_assoc]

/-- Taking the advance back leaves the state as it was. -/
@[simp] theorem State.rewind_advance (s : State) : s.advance.rewind = s := by
  simp [State.rewind, State.advance]

/-- What fits the frame of a list fits the frame of a longer one. -/
theorem UnchangedBut.mono {l m : List Part} {s t : State} (h : UnchangedBut l s t) (hlm : l ⊆ m) :
    UnchangedBut m s t := fun p hp => h p (fun hl => hp (hlm hl))

end Sys2Proof.Machine
end

