-- ==== Sys2Proof/Laws/Ops.lean ====
section
/-! SUPPORT. What the shared operations over the stack, the keys and the register block do, and how a command ends. -/

namespace Sys2Proof.Machine

/-! ### The end of a command -/

@[simp] theorem commit_some (s t : State) (f : Fault) : commit s f (some t) = .next t := rfl
@[simp] theorem commit_none (s : State) (f : Fault) : commit s f none = .next (s.raise f) := rfl

/-- A command that may raise answers its result or fault entry, nothing else. -/
theorem commit_cases {s t : State} {f : Fault} {r : Option State} (h : commit s f r = .next t) :
    r = some t ∨ (r = none ∧ t = s.raise f) := by
  cases r with
  | none => exact .inr ⟨rfl, by simpa [commit] using h.symm⟩
  | some u => exact .inl (by simpa [commit] using h)

/-- The same for a result computed from an operation that may raise. -/
theorem commit_map_cases {α : Type} {s t : State} {f : Fault} {r : Option α} {g : α → State}
    (h : commit s f (r.map g) = .next t) : (∃ a, r = some a ∧ t = g a) ∨ (r = none ∧ t = s.raise f) := by
  cases r with
  | none => exact .inr ⟨rfl, by simpa [commit] using h.symm⟩
  | some a => exact .inl ⟨a, rfl, by simpa [commit] using h.symm⟩

/-! ### The call stack -/

/-- Push below depth 16: the old top slot takes the value, sp counts one more (R15). -/
theorem State.push_of_lt (s : State) (v : Word) (h : s.sp.val < 16) :
    s.push v = some { s with stack := s.stack.set s.sp.val v h, sp := ⟨s.sp.val + 1, by omega⟩ } := by
  simp [State.push, h]

/-- Push at depth 16 is StackFault (R15). -/
theorem State.push_of_full (s : State) (v : Word) (h : s.sp.val = 16) : s.push v = none := by
  simp [State.push, h]

/-- Pop of an empty stack is StackFault (R15). -/
theorem State.pop_of_empty (s : State) (h : s.sp.val = 0) : s.pop = none := by
  have : s.sp = 0 := Fin.ext h
  simp [State.pop, this]

/-- Pop of a stack that holds something: the top slot, sp one less, no slot changed (R15, R28). -/
theorem State.pop_of_pos (s : State) (h : 0 < s.sp.val) :
    s.pop = some (s.stack.get ⟨s.sp.val - 1, by omega⟩, { s with sp := ⟨s.sp.val - 1, by omega⟩ }) := by
  obtain ⟨V, pc, I, sp, stack, keys, dt, st, display, mem, fault, loaded, host⟩ := s
  obtain ⟨k, hk⟩ := sp
  cases k with
  | zero => simp at h
  | succ k => rfl

/-- Everything Push can do (R15). -/
theorem State.push_eq_some {s t : State} {v : Word} (h : s.push v = some t) :
    ∃ hp : s.sp.val < 16,
      t = { s with stack := s.stack.set s.sp.val v hp, sp := ⟨s.sp.val + 1, by omega⟩ } := by
  by_cases hs : s.sp.val < 16
  · exact ⟨hs, by simpa [State.push_of_lt s v hs] using h.symm⟩
  · simp [State.push_of_full s v (by omega)] at h

/-- Everything Pop can do (R15). -/
theorem State.pop_eq_some {s t : State} {v : Word} (h : s.pop = some (v, t)) :
    ∃ k : Fin 16, s.sp.val = k.val + 1 ∧ v = s.stack.get k ∧ t = { s with sp := ⟨k.val, by omega⟩ } := by
  by_cases hs : s.sp.val = 0
  · simp [State.pop_of_empty s hs] at h
  · rw [State.pop_of_pos s (by omega)] at h
    simp only [Option.some.injEq, Prod.mk.injEq] at h
    exact ⟨⟨s.sp.val - 1, by omega⟩, by simp only; omega, h.1.symm, h.2.symm⟩

/-! ### Keys -/

theorem State.keyRead_of_lt (s : State) (k : Nat) (h : k < 16) : s.keyRead k = some (s.keys.get ⟨k, h⟩) := by
  simp [State.keyRead, h, Vector.get_eq_getElem]

theorem State.keyRead_of_ge (s : State) (k : Nat) (h : 16 ≤ k) : s.keyRead k = none := by
  simp [State.keyRead, h]

/-- The scan finds the least pressed key (R162). -/
theorem State.lowestKey_eq_some (s : State) (k : Fin 16) :
    s.lowestKey = some k ↔ s.keys.get k = true ∧ ∀ j, j < k → s.keys.get j = false := by
  unfold State.lowestKey
  rw [List.find?_eq_some_iff_getElem]
  constructor
  · rintro ⟨hk, i, hi, rfl, hlt⟩
    refine ⟨hk, fun j hj => ?_⟩
    have := hlt j.val (by simpa [Fin.lt_def] using hj)
    simpa using this
  · rintro ⟨hk, hlt⟩
    refine ⟨hk, k.val, by simp, by simp, fun j hj => ?_⟩
    have := hlt ⟨j, by omega⟩ (by simpa [Fin.lt_def] using hj)
    simpa using this

/-- The scan finds nothing exactly when no key is pressed (R162). -/
theorem State.lowestKey_eq_none (s : State) : s.lowestKey = none ↔ ∀ k, s.keys.get k = false := by
  simp [State.lowestKey]

/-! ### The register block of LOAD -/

/-- Register `r` after bytes went to the registers from `k` on. -/
theorem setRegsFrom_get (V : Vector Byte 16) (k : Nat) (bs : List Byte) (r : RegIx) :
    (setRegsFrom V k bs).get r = if k ≤ r.val ∧ r.val < k + bs.length then bs.getD (r.val - k) 0#8 else V.get r := by
  induction bs generalizing V k with
  | nil =>
    have : ¬ (k ≤ r.val ∧ r.val < k + ([] : List Byte).length) := by simp
    rw [if_neg this]
    rfl
  | cons b bs ih =>
    rw [setRegsFrom, ih]
    simp only [List.length_cons]
    by_cases hr : r.val = k
    · have h1 : ¬ (k + 1 ≤ r.val ∧ r.val < k + 1 + bs.length) := by omega
      have h2 : k ≤ r.val ∧ r.val < k + (bs.length + 1) := by omega
      rw [if_neg h1, if_pos h2]
      simp [Vector.get_eq_getElem, hr]
    · by_cases h1 : k + 1 ≤ r.val ∧ r.val < k + 1 + bs.length
      · have h2 : k ≤ r.val ∧ r.val < k + (bs.length + 1) := by omega
        have h3 : r.val - k = (r.val - (k + 1)) + 1 := by omega
        rw [if_pos h1, if_pos h2, h3, List.getD_cons_succ]
      · have h2 : ¬ (k ≤ r.val ∧ r.val < k + (bs.length + 1)) := by omega
        rw [if_neg h1, if_neg h2]
        have hk : k ≠ r.val := fun e => hr e.symm
        simp [Vector.get_eq_getElem, hk]

/-! ### The index register after STORE and LOAD -/

/-- I stays with the switch off (R146). -/
@[simp] theorem State.indexAfter_false (s : State) (x : RegIx) : s.indexAfter false x = s.I := rfl

/-- I passes the block with the switch on (R7). -/
@[simp] theorem State.indexAfter_true (s : State) (x : RegIx) :
    s.indexAfter true x = s.I + BitVec.ofNat 16 (x.val + 1) := rfl

/-! ### The register block of STORE -/

/-- The bytes STORE moves: V[k] at place k (R144). -/
theorem State.regsUpTo_length (s : State) (x : RegIx) : (s.regsUpTo x).length = x.val + 1 := by
  simp [State.regsUpTo]

theorem State.regsUpTo_getD (s : State) (x : RegIx) (k : Nat) (h : k < x.val + 1) :
    (s.regsUpTo x).getD k 0#8 = s.reg ⟨k, by omega⟩ := by
  simp [State.regsUpTo, State.reg, Vector.get_eq_getElem, List.getD_eq_getElem?_getD, h]

end Sys2Proof.Machine
end

