-- ==== Sys2Proof/Laws/Step.lean ====
section
/-! SUPPORT. What a TICK and a step can do: one lemma per way through, and the inversions that name all of them. -/

namespace Sys2Proof.Machine

@[simp] theorem State.halted_iff (s : State) : s.halted = true ↔ s.fault ≠ none := by
  simp [State.halted, Option.isSome_iff_ne_none]

theorem State.halted_of_none {s : State} (h : s.fault = none) : s.halted = false := by
  simp [State.halted, h]

/-- A halted block ignores the TICK (R211). -/
theorem tick_halted {s : State} (h : s.fault ≠ none) (r : Byte) : tick r s = .next s := by
  have : s.halted = true := by simpa using h
  simp [tick, this]

/-- A running block runs the body of the TICK with its byte (R90). -/
theorem tick_running {s : State} (h : s.fault = none) (r : Byte) : tick r s = runTick (s.withRnd r) := by
  simp [tick, State.halted_of_none h, State.withRnd]

/-- The fetch is the first check (R91, R207). -/
theorem runTick_of_fetch_none {s : State} (h : s.fetch = none) : runTick s = .next (s.raise .memoryFault) := by
  simp [runTick, h]

/-- The opcode is the second check (R204, R207). -/
theorem runTick_of_illegal {s : State} {op : Word} (h : s.fetch = some op) (hd : decodeWord op = none) :
    runTick s = .next (s.raise (.invalidOpcode op)) := by
  simp [runTick, h, hd]

/-- A legal word is executed (R94). -/
theorem runTick_of_decodes {s : State} {op : Word} {i : Instr} (h : s.fetch = some op)
    (hd : decodeWord op = some i) : runTick s = exec i s := by
  simp [runTick, h, hd]

@[simp] theorem State.fetch_withRnd (s : State) (r : Byte) : (s.withRnd r).fetch = s.fetch := rfl

/-- The three ways a TICK body can go (R207). -/
theorem runTick_cases {s t : State} (h : runTick s = .next t) :
    (s.fetch = none ∧ t = s.raise .memoryFault) ∨
    (∃ op, s.fetch = some op ∧ decodeWord op = none ∧ t = s.raise (.invalidOpcode op)) ∨
    (∃ op i, s.fetch = some op ∧ decodeWord op = some i ∧ exec i s = .next t) := by
  cases hf : s.fetch with
  | none => exact .inl ⟨rfl, by simpa [runTick_of_fetch_none hf] using h.symm⟩
  | some op =>
    cases hd : decodeWord op with
    | none => exact .inr (.inl ⟨op, rfl, hd, by simpa [runTick_of_illegal hf hd] using h.symm⟩)
    | some i => exact .inr (.inr ⟨op, i, rfl, hd, by rwa [runTick_of_decodes hf hd] at h⟩)

/-- The two ways a TICK can go (R90). -/
theorem tick_cases {r : Byte} {s t : State} (h : tick r s = .next t) :
    (s.fault ≠ none ∧ t = s) ∨ (s.fault = none ∧ runTick (s.withRnd r) = .next t) := by
  by_cases hf : s.fault = none
  · exact .inr ⟨hf, by rwa [tick_running hf] at h⟩
  · exact .inl ⟨hf, by simpa [tick_halted hf] using h.symm⟩

/-- A step performs one command: the oldest pending one, or the host's free choice; what the command finds is the state
with only the host's side moved on. -/
theorem step_performs (s : State) :
    ∃ h, step s = perform (nextCommand s).1 { s with host := h } ∧
      ((s.host.inbox = [] ∧ (nextCommand s).1 = Config.hostCommand s.host.draws) ∨
        ∃ cs, s.host.inbox = (nextCommand s).1 :: cs) := by
  cases hi : s.host.inbox with
  | nil =>
    exact ⟨_, by simp only [step, nextCommand, hi, State.freshCommand]; rfl,
      .inl ⟨rfl, by simp only [nextCommand, hi, State.freshCommand]⟩⟩
  | cons c cs => exact ⟨_, by simp only [step, nextCommand, hi]; rfl, .inr ⟨cs, by simp only [nextCommand, hi]⟩⟩

end Sys2Proof.Machine
end

