-- ==== Sys2Proof/Laws/Commands.lean ====
section
/-! SUPPORT. What the commands LOAD, KEYPRESS, TICK_TIMERS and RESET can do. -/

namespace Sys2Proof.Machine

/-- A timer goes down by 1 and stays at 0 (R171, R172). -/
theorem decay_toNat (v : Byte) : (decay v).toNat = v.toNat - 1 := by
  unfold decay
  by_cases h : v = 0#8
  · simp [h]
  · have : v.toNat ≠ 0 := fun e => h (by simpa using BitVec.eq_of_toNat_eq (y := 0#8) e)
    rw [if_neg h, BitVec.toNat_sub]
    have := v.isLt
    simp only [BitVec.toNat_ofNat]
    omega

theorem tickTimers_halted {s : State} (h : s.fault ≠ none) : tickTimers s = s := by simp [tickTimers, h]

theorem tickTimers_running {s : State} (h : s.fault = none) :
    tickTimers s = { s with dt := decay s.dt, st := decay s.st } := by simp [tickTimers, h]

theorem keypress_halted {s : State} (h : s.fault ≠ none) (k : Nat) (p : Bool) : keypress k p s = s := by
  simp [keypress, h]

/-- An index that exists (R183). -/
theorem keypress_of_lt {s : State} (h : s.fault = none) {k : Nat} (hk : k < 16) (p : Bool) :
    keypress k p s = { s with keys := s.keys.set k p hk } := by simp [keypress, h, hk]

/-- An index above 15 (R183). -/
theorem keypress_of_ge {s : State} (h : s.fault = none) {k : Nat} (hk : 15 < k) (p : Bool) :
    keypress k p s = s.raise .memoryFault := by
  have hk : ¬ k < 16 := by omega
  simp [keypress, h, hk]

theorem loadRom_halted {s : State} (h : s.fault ≠ none) (bytes : List Byte) : loadRom bytes s = s := by
  simp [loadRom, h]

/-- LOADED is looked at before the size (R207). -/
theorem loadRom_of_loaded {s : State} (h : s.fault = none) (hl : s.loaded = true) (bytes : List Byte) :
    loadRom bytes s = s.raise .loadFault := by simp [loadRom, h, hl]

/-- A ROM that does not fit (R185). -/
theorem loadRom_of_oversize {s : State} (h : s.fault = none) (hl : s.loaded = false) {bytes : List Byte}
    (hb : 3584 < bytes.length) : loadRom bytes s = s.raise .memoryFault := by
  have hw : Memory.writeBlock s.mem 512 bytes = none := by
    have := Memory.writeBlock_isSome s.mem 512 bytes
    rw [← Option.not_isSome_iff_eq_none, this]
    rintro (rfl | h)
    · simp at hb
    · omega
  simp [loadRom, h, hl, hw]

/-- A ROM that fits (R185). -/
theorem loadRom_of_fits {s : State} (h : s.fault = none) (hl : s.loaded = false) {bytes : List Byte}
    (hb : bytes.length ≤ 3584) :
    ∃ m, Memory.writeBlock s.mem 512 bytes = some m ∧ loadRom bytes s = { s with mem := m, loaded := true } := by
  have hw : (Memory.writeBlock s.mem 512 bytes).isSome = true :=
    (Memory.writeBlock_isSome s.mem 512 bytes).mpr (.inr (by omega))
  obtain ⟨m, hm⟩ := Option.isSome_iff_exists.mp hw
  exact ⟨m, hm, by simp [loadRom, h, hl, hm]⟩

end Sys2Proof.Machine
end

