-- ==== Sys2Proof/Laws/Draw.lean ====
section
/-! SUPPORT. What drawing one bit, one row and a whole sprite does to a pixel and to the collision bit. -/

namespace Sys2Proof.Machine

/-- A blank screen (R150). -/
@[simp] theorem displayBit_blank (i : Nat) : displayBit (Vector.replicate 32 0#64) i = false := by
  unfold displayBit
  split <;> simp

/-- Flipping pixel `i` flips it and leaves every other pixel (R37). -/
theorem displayBit_flipBit (d : Display) (i j : Nat) (hj : j < 2048) :
    displayBit (flipBit d i) j = if j = i then !displayBit d j else displayBit d j := by
  have h2 : j / 64 < 32 := by omega
  have hm : j % 64 < 64 := by omega
  unfold displayBit flipBit
  by_cases h1 : i / 64 < 32
  · simp only [h1, h2, dif_pos]
    by_cases hr : i / 64 = j / 64
    · by_cases hc : i % 64 = j % 64
      · have : j = i := by omega
        subst this
        simp [hm]
      · have : j ≠ i := by rintro rfl; exact hc rfl
        have hc' : ¬ j % 64 = i % 64 := fun e => hc e.symm
        simp [hr, hm, this, hc']
    · have : j ≠ i := by rintro rfl; exact hr rfl
      simp [hr, this]
  · have : j ≠ i := by rintro rfl; exact h1 h2
    simp [h1, this]

/-- Toggling pixel `i` of the screen (R152). -/
theorem toggle_displayBit (d : Canvas) (i j : Nat) (hj : j < 2048) :
    displayBit (toggle d i).1 j = if j = i then !displayBit d.1 j else displayBit d.1 j :=
  displayBit_flipBit d.1 i j hj

theorem toggle_collided (d : Canvas) (i : Nat) : (toggle d i).2 = (d.2 || displayBit d.1 i) := rfl

/-- A display index is in range, and it tells its column and row (R151). -/
theorem pixelIndex_lt (ox oy r c : Nat) : pixelIndex ox oy r c < 2048 := by
  unfold pixelIndex; omega

theorem pixelIndex_eq_iff (ox oy r c px py : Nat) (hx : px < 64) :
    64 * py + px = pixelIndex ox oy r c ↔ (oy + r) % 32 = py ∧ (ox + c) % 64 = px := by
  unfold pixelIndex; omega

/-- The columns of a row that are drawn, as a list of distinct display indices. -/
def rowIndices (ox oy r : Nat) (b : Byte) : List Nat :=
  ((List.range 8).filter (fun c => b.getLsbD (7 - c))).map (pixelIndex ox oy r)

theorem drawRow_eq_foldl (ox oy r : Nat) (b : Byte) (d : Canvas) :
    drawRow ox oy r b d = (rowIndices ox oy r b).foldl toggle d := by
  unfold drawRow rowIndices
  generalize List.range 8 = l
  induction l generalizing d with
  | nil => rfl
  | cons c l ih =>
    by_cases hb : b.getLsbD (7 - c) = true
    · simp only [List.foldl_cons, hb, if_true, List.filter_cons_of_pos, List.map_cons, ih]
    · simp only [List.foldl_cons, hb, if_false, List.filter_cons_of_neg, not_false_eq_true, ih, Bool.false_eq_true]

/-- The indices a whole sprite toggles, in the order in which it toggles them. -/
def spriteIndices (ox oy : Nat) : Nat → List Byte → List Nat
  | _, [] => []
  | r, b :: bs => rowIndices ox oy r b ++ spriteIndices ox oy (r + 1) bs

theorem drawRows_eq_foldl (ox oy r : Nat) (bs : List Byte) (d : Canvas) :
    drawRows ox oy r bs d = (spriteIndices ox oy r bs).foldl toggle d := by
  induction bs generalizing r d with
  | nil => rfl
  | cons b bs ih => rw [drawRows, ih, spriteIndices, List.foldl_append, drawRow_eq_foldl]

/-- Toggling distinct pixels: each listed pixel is flipped once, the others stay (R153). -/
theorem foldl_toggle_displayBit (l : List Nat) (hl : l.Nodup) (d : Canvas) (j : Nat) (hj : j < 2048) :
    displayBit (l.foldl toggle d).1 j = if j ∈ l then !displayBit d.1 j else displayBit d.1 j := by
  induction l generalizing d with
  | nil => simp
  | cons i l ih =>
    rw [List.nodup_cons] at hl
    rw [List.foldl_cons, ih hl.2, toggle_displayBit _ _ _ hj]
    by_cases hji : j = i
    · subst hji; simp [hl.1]
    · simp [hji]

/-- Toggling distinct pixels: a collision is a listed pixel that was lit before (R153). -/
theorem foldl_toggle_collided (l : List Nat) (hl : l.Nodup) (hr : ∀ i ∈ l, i < 2048) (d : Canvas) :
    (l.foldl toggle d).2 = (d.2 || l.any (fun i => displayBit d.1 i)) := by
  induction l generalizing d with
  | nil => simp
  | cons i l ih =>
    rw [List.nodup_cons] at hl
    have hany : (l.any fun j => displayBit (toggle d i).1 j) = l.any fun j => displayBit d.1 j := by
      rw [Bool.eq_iff_iff, List.any_eq_true, List.any_eq_true]
      refine exists_congr fun j => and_congr_right fun hj => ?_
      have hne : j ≠ i := fun e => hl.1 (e ▸ hj)
      rw [toggle_displayBit _ _ _ (hr j (by simp [hj])), if_neg hne]
    rw [List.foldl_cons, ih hl.2 (fun j hj => hr j (by simp [hj])), toggle_collided, hany, List.any_cons, Bool.or_assoc]

theorem mem_rowIndices {ox oy r : Nat} {b : Byte} {i : Nat} :
    i ∈ rowIndices ox oy r b ↔ ∃ c, c < 8 ∧ b.getLsbD (7 - c) = true ∧ pixelIndex ox oy r c = i := by
  simp [rowIndices, and_assoc]

theorem mem_spriteIndices {ox oy r : Nat} {bs : List Byte} {i : Nat} :
    i ∈ spriteIndices ox oy r bs ↔
      ∃ k c, k < bs.length ∧ c < 8 ∧ (bs.getD k 0#8).getLsbD (7 - c) = true ∧ pixelIndex ox oy (r + k) c = i := by
  induction bs generalizing r with
  | nil => simp [spriteIndices]
  | cons b bs ih =>
    rw [spriteIndices, List.mem_append, mem_rowIndices, ih]
    constructor
    · rintro (⟨c, hc, hb, rfl⟩ | ⟨k, c, hk, hc, hb, rfl⟩)
      · exact ⟨0, c, by simp, hc, by simpa using hb, rfl⟩
      · exact ⟨k + 1, c, by simpa using hk, hc, by simpa using hb, by rw [Nat.add_right_comm, Nat.add_assoc]⟩
    · rintro ⟨k, c, hk, hc, hb, rfl⟩
      cases k with
      | zero => exact .inl ⟨c, hc, by simpa using hb, rfl⟩
      | succ k =>
        exact .inr ⟨k, c, by simpa using hk, hc, by simpa using hb, by rw [Nat.add_right_comm, Nat.add_assoc]⟩

theorem rowIndices_nodup (ox oy r : Nat) (b : Byte) : (rowIndices ox oy r b).Nodup := by
  refine List.Nodup.map_on ?_ (List.nodup_range.filter _)
  intro c hc e he h
  simp only [List.mem_filter, List.mem_range] at hc he
  unfold pixelIndex at h
  omega

/-- Within one sprite of at most 32 rows no pixel is toggled twice (R153). -/
theorem spriteIndices_nodup (ox oy r : Nat) (bs : List Byte) (h : bs.length ≤ 32) :
    (spriteIndices ox oy r bs).Nodup := by
  induction bs generalizing r with
  | nil => simp [spriteIndices]
  | cons b bs ih =>
    simp only [List.length_cons] at h
    refine List.Nodup.append (rowIndices_nodup ox oy r b) (ih (r + 1) (by omega)) ?_
    intro i hi hj
    obtain ⟨c, _, _, rfl⟩ := mem_rowIndices.mp hi
    obtain ⟨k, e, hk, _, _, he⟩ := mem_spriteIndices.mp hj
    unfold pixelIndex at he
    omega

theorem spriteIndices_lt {ox oy r : Nat} {bs : List Byte} {i : Nat} (h : i ∈ spriteIndices ox oy r bs) :
    i < 2048 := by
  obtain ⟨k, c, _, _, _, rfl⟩ := mem_spriteIndices.mp h
  exact pixelIndex_lt _ _ _ _

end Sys2Proof.Machine
end

