-- ==== Sys2Proof/Laws/PerInstr.lean ====
section
/-! SUPPORT. For every instruction: its encoded word has the pattern of its row in the opcode table (R75). -/

open Sys2Proof

/-- The word of the instruction matches the row of R75 that bears its mnemonic. -/
def Sys2Proof.Laws.TableRow.Statement (i : Instr) : Prop :=
  ∃ row : OpcodeRow, row ∈ opcodeRows ∧ row.mnemonic = i.mnemonic ∧ row.matchesWord (encode i) = true

open Sys2Proof.Laws.TableRow

theorem Sys2Proof.Laws.TableRow.nop : Statement .nop :=
  ⟨⟨"NOP", 0xFFFF, 0x0000⟩, by decide, rfl, by decide⟩

theorem Sys2Proof.Laws.TableRow.cls : Statement .cls :=
  ⟨⟨"CLS", 0xFFFF, 0x00E0⟩, by decide, rfl, by decide⟩

theorem Sys2Proof.Laws.TableRow.ret : Statement .ret :=
  ⟨⟨"RET", 0xFFFF, 0x00EE⟩, by decide, rfl, by decide⟩

theorem Sys2Proof.Laws.TableRow.jp (nnn : Word) : Statement (.jp nnn) :=
  ⟨⟨"JP", 0xF000, 0x1000⟩, by decide, rfl, by simp only [OpcodeRow.matchesWord, encode, wordA_and]; decide⟩

theorem Sys2Proof.Laws.TableRow.call (nnn : Word) : Statement (.call nnn) :=
  ⟨⟨"CALL", 0xF000, 0x2000⟩, by decide, rfl, by simp only [OpcodeRow.matchesWord, encode, wordA_and]; decide⟩

theorem Sys2Proof.Laws.TableRow.seImm (x : RegIx) (nn : Byte) : Statement (.seImm x nn) :=
  ⟨⟨"SE_IMM", 0xF000, 0x3000⟩, by decide, rfl, by simp only [OpcodeRow.matchesWord, encode, wordXI_and]; decide⟩

theorem Sys2Proof.Laws.TableRow.sneImm (x : RegIx) (nn : Byte) : Statement (.sneImm x nn) :=
  ⟨⟨"SNE_IMM", 0xF000, 0x4000⟩, by decide, rfl, by simp only [OpcodeRow.matchesWord, encode, wordXI_and]; decide⟩

theorem Sys2Proof.Laws.TableRow.seReg (x y : RegIx) : Statement (.seReg x y) :=
  ⟨⟨"SE_REG", 0xF00F, 0x5000⟩, by decide, rfl, by simp only [OpcodeRow.matchesWord, encode, wordXYN_and_sub]; decide⟩

theorem Sys2Proof.Laws.TableRow.ldImm (x : RegIx) (nn : Byte) : Statement (.ldImm x nn) :=
  ⟨⟨"LD_IMM", 0xF000, 0x6000⟩, by decide, rfl, by simp only [OpcodeRow.matchesWord, encode, wordXI_and]; decide⟩

theorem Sys2Proof.Laws.TableRow.addImm (x : RegIx) (nn : Byte) : Statement (.addImm x nn) :=
  ⟨⟨"ADD_IMM", 0xF000, 0x7000⟩, by decide, rfl, by simp only [OpcodeRow.matchesWord, encode, wordXI_and]; decide⟩

theorem Sys2Proof.Laws.TableRow.ldReg (x y : RegIx) : Statement (.ldReg x y) :=
  ⟨⟨"LD_REG", 0xF00F, 0x8000⟩, by decide, rfl, by simp only [OpcodeRow.matchesWord, encode, wordXYN_and_sub]; decide⟩

theorem Sys2Proof.Laws.TableRow.or (x y : RegIx) : Statement (.or x y) :=
  ⟨⟨"OR", 0xF00F, 0x8001⟩, by decide, rfl, by simp only [OpcodeRow.matchesWord, encode, wordXYN_and_sub]; decide⟩

theorem Sys2Proof.Laws.TableRow.and (x y : RegIx) : Statement (.and x y) :=
  ⟨⟨"AND", 0xF00F, 0x8002⟩, by decide, rfl, by simp only [OpcodeRow.matchesWord, encode, wordXYN_and_sub]; decide⟩

theorem Sys2Proof.Laws.TableRow.xor (x y : RegIx) : Statement (.xor x y) :=
  ⟨⟨"XOR", 0xF00F, 0x8003⟩, by decide, rfl, by simp only [OpcodeRow.matchesWord, encode, wordXYN_and_sub]; decide⟩

theorem Sys2Proof.Laws.TableRow.addReg (x y : RegIx) : Statement (.addReg x y) :=
  ⟨⟨"ADD_REG", 0xF00F, 0x8004⟩, by decide, rfl, by simp only [OpcodeRow.matchesWord, encode, wordXYN_and_sub]; decide⟩

theorem Sys2Proof.Laws.TableRow.sub (x y : RegIx) : Statement (.sub x y) :=
  ⟨⟨"SUB", 0xF00F, 0x8005⟩, by decide, rfl, by simp only [OpcodeRow.matchesWord, encode, wordXYN_and_sub]; decide⟩

theorem Sys2Proof.Laws.TableRow.shr (x y : RegIx) : Statement (.shr x y) :=
  ⟨⟨"SHR", 0xF00F, 0x8006⟩, by decide, rfl, by simp only [OpcodeRow.matchesWord, encode, wordXYN_and_sub]; decide⟩

theorem Sys2Proof.Laws.TableRow.subn (x y : RegIx) : Statement (.subn x y) :=
  ⟨⟨"SUBN", 0xF00F, 0x8007⟩, by decide, rfl, by simp only [OpcodeRow.matchesWord, encode, wordXYN_and_sub]; decide⟩

theorem Sys2Proof.Laws.TableRow.shl (x y : RegIx) : Statement (.shl x y) :=
  ⟨⟨"SHL", 0xF00F, 0x800E⟩, by decide, rfl, by simp only [OpcodeRow.matchesWord, encode, wordXYN_and_sub]; decide⟩

theorem Sys2Proof.Laws.TableRow.sneReg (x y : RegIx) : Statement (.sneReg x y) :=
  ⟨⟨"SNE_REG", 0xF00F, 0x9000⟩, by decide, rfl, by simp only [OpcodeRow.matchesWord, encode, wordXYN_and_sub]; decide⟩

theorem Sys2Proof.Laws.TableRow.ldI (nnn : Word) : Statement (.ldI nnn) :=
  ⟨⟨"LD_I", 0xF000, 0xA000⟩, by decide, rfl, by simp only [OpcodeRow.matchesWord, encode, wordA_and]; decide⟩

theorem Sys2Proof.Laws.TableRow.jpV0 (nnn : Word) : Statement (.jpV0 nnn) :=
  ⟨⟨"JP_V0", 0xF000, 0xB000⟩, by decide, rfl, by simp only [OpcodeRow.matchesWord, encode, wordA_and]; decide⟩

theorem Sys2Proof.Laws.TableRow.rnd (x : RegIx) (nn : Byte) : Statement (.rnd x nn) :=
  ⟨⟨"RND", 0xF000, 0xC000⟩, by decide, rfl, by simp only [OpcodeRow.matchesWord, encode, wordXI_and]; decide⟩

theorem Sys2Proof.Laws.TableRow.drw (x y : RegIx) (n : Nat) : Statement (.drw x y n) :=
  ⟨⟨"DRW", 0xF000, 0xD000⟩, by decide, rfl, by simp only [OpcodeRow.matchesWord, encode, wordXYN_and]; decide⟩

theorem Sys2Proof.Laws.TableRow.skp (x : RegIx) : Statement (.skp x) :=
  ⟨⟨"SKP", 0xF0FF, 0xE09E⟩, by decide, rfl, by simp only [OpcodeRow.matchesWord, encode, wordXI_and_sub]; decide⟩

theorem Sys2Proof.Laws.TableRow.sknp (x : RegIx) : Statement (.sknp x) :=
  ⟨⟨"SKNP", 0xF0FF, 0xE0A1⟩, by decide, rfl, by simp only [OpcodeRow.matchesWord, encode, wordXI_and_sub]; decide⟩

theorem Sys2Proof.Laws.TableRow.ldVxDt (x : RegIx) : Statement (.ldVxDt x) :=
  ⟨⟨"LD_VX_DT", 0xF0FF, 0xF007⟩, by decide, rfl, by simp only [OpcodeRow.matchesWord, encode, wordXI_and_sub]; decide⟩

theorem Sys2Proof.Laws.TableRow.waitkey (x : RegIx) : Statement (.waitkey x) :=
  ⟨⟨"WAITKEY", 0xF0FF, 0xF00A⟩, by decide, rfl, by simp only [OpcodeRow.matchesWord, encode, wordXI_and_sub]; decide⟩

theorem Sys2Proof.Laws.TableRow.ldDtVx (x : RegIx) : Statement (.ldDtVx x) :=
  ⟨⟨"LD_DT_VX", 0xF0FF, 0xF015⟩, by decide, rfl, by simp only [OpcodeRow.matchesWord, encode, wordXI_and_sub]; decide⟩

theorem Sys2Proof.Laws.TableRow.ldStVx (x : RegIx) : Statement (.ldStVx x) :=
  ⟨⟨"LD_ST_VX", 0xF0FF, 0xF018⟩, by decide, rfl, by simp only [OpcodeRow.matchesWord, encode, wordXI_and_sub]; decide⟩

theorem Sys2Proof.Laws.TableRow.addI (x : RegIx) : Statement (.addI x) :=
  ⟨⟨"ADD_I", 0xF0FF, 0xF01E⟩, by decide, rfl, by simp only [OpcodeRow.matchesWord, encode, wordXI_and_sub]; decide⟩

theorem Sys2Proof.Laws.TableRow.ldF (x : RegIx) : Statement (.ldF x) :=
  ⟨⟨"LD_F", 0xF0FF, 0xF029⟩, by decide, rfl, by simp only [OpcodeRow.matchesWord, encode, wordXI_and_sub]; decide⟩

theorem Sys2Proof.Laws.TableRow.bcd (x : RegIx) : Statement (.bcd x) :=
  ⟨⟨"BCD", 0xF0FF, 0xF033⟩, by decide, rfl, by simp only [OpcodeRow.matchesWord, encode, wordXI_and_sub]; decide⟩

theorem Sys2Proof.Laws.TableRow.store (x : RegIx) : Statement (.store x) :=
  ⟨⟨"STORE", 0xF0FF, 0xF055⟩, by decide, rfl, by simp only [OpcodeRow.matchesWord, encode, wordXI_and_sub]; decide⟩

theorem Sys2Proof.Laws.TableRow.load (x : RegIx) : Statement (.load x) :=
  ⟨⟨"LOAD", 0xF0FF, 0xF065⟩, by decide, rfl, by simp only [OpcodeRow.matchesWord, encode, wordXI_and_sub]; decide⟩
end

