-- ==== Sys2Proof/Tests/Slice0.lean ====
section
/-! SUPPORT. Tests: ill-formed terms refused, words written out from the encodings of 30_encoding.md, one step each with
results taken from the spec's examples, and a witness for the hypotheses of every obligation. -/

namespace Sys2Proof.Tests

open Sys2Proof Sys2Proof.Machine

/-! ### Well-formedness: each check refuses an ill-formed term -/

theorem test_wf_jp_refuses : (Instr.jp 0x1000).wellFormed = false := by decide
theorem test_wf_call_refuses : (Instr.call 0x1000).wellFormed = false := by decide
theorem test_wf_ldI_refuses : (Instr.ldI 0xFFFF).wellFormed = false := by decide
theorem test_wf_jpV0_refuses : (Instr.jpV0 0x1000).wellFormed = false := by decide
theorem test_wf_drw_refuses : (Instr.drw 0 0 16).wellFormed = false := by decide
theorem test_wf_boundaries : (Instr.jp 0xFFF).wellFormed = true ∧ (Instr.drw 15 15 15).wellFormed = true := by decide

/-! ### Decoding: one word for every constructor, read by hand from the tables of R71 and R75 -/

/-- Families 0, 1, 2 and B: NOP, CLS, RET, JP, CALL, JP_V0. -/
theorem test_decode_control :
    decodeWord 0x0000 = some .nop ∧ decodeWord 0x00E0 = some .cls ∧ decodeWord 0x00EE = some .ret ∧
    decodeWord 0x1204 = some (.jp 0x204) ∧ decodeWord 0x2208 = some (.call 0x208) ∧
    decodeWord 0xBFFF = some (.jpV0 0xFFF) := by decide

/-- Families 3, 4, 5 and 9: the skips. -/
theorem test_decode_skips :
    decodeWord 0x3100 = some (.seImm 1 0) ∧ decodeWord 0x4A10 = some (.sneImm 10 0x10) ∧
    decodeWord 0x5120 = some (.seReg 1 2) ∧ decodeWord 0x9120 = some (.sneReg 1 2) := by decide

/-- Families 6, 7 and C: an immediate byte. -/
theorem test_decode_immediate :
    decodeWord 0x6105 = some (.ldImm 1 5) ∧ decodeWord 0x71FF = some (.addImm 1 0xFF) ∧
    decodeWord 0xC30F = some (.rnd 3 0x0F) := by decide

/-- Family 8: the last nibble selects, and the ignored nibble of the shifts is kept. -/
theorem test_decode_alu :
    decodeWord 0x8EF0 = some (.ldReg 14 15) ∧ decodeWord 0x8121 = some (.or 1 2) ∧
    decodeWord 0x8122 = some (.and 1 2) ∧ decodeWord 0x8123 = some (.xor 1 2) ∧
    decodeWord 0x8124 = some (.addReg 1 2) ∧ decodeWord 0x8125 = some (.sub 1 2) ∧
    decodeWord 0x81A6 = some (.shr 1 10) ∧ decodeWord 0x8127 = some (.subn 1 2) ∧
    decodeWord 0x81AE = some (.shl 1 10) := by decide

/-- Families A, D and E. -/
theorem test_decode_index_draw_keys :
    decodeWord 0xA300 = some (.ldI 0x300) ∧ decodeWord 0xD012 = some (.drw 0 1 2) ∧
    decodeWord 0xE29E = some (.skp 2) ∧ decodeWord 0xE2A1 = some (.sknp 2) := by decide

/-- Family F. -/
theorem test_decode_family_f :
    decodeWord 0xF207 = some (.ldVxDt 2) ∧ decodeWord 0xF10A = some (.waitkey 1) ∧
    decodeWord 0xF115 = some (.ldDtVx 1) ∧ decodeWord 0xF318 = some (.ldStVx 3) ∧
    decodeWord 0xF21E = some (.addI 2) ∧ decodeWord 0xF029 = some (.ldF 0) ∧
    decodeWord 0xF133 = some (.bcd 1) ∧ decodeWord 0xF255 = some (.store 2) ∧
    decodeWord 0xF265 = some (.load 2) := by decide

/-- Words of R78's list, at the edges of its ranges. -/
theorem test_decode_illegal :
    decodeWord 0x0001 = none ∧ decodeWord 0x00DF = none ∧ decodeWord 0x00E1 = none ∧ decodeWord 0x00ED = none ∧
    decodeWord 0x00EF = none ∧ decodeWord 0x0FFF = none ∧ decodeWord 0x5121 = none ∧ decodeWord 0x912F = none ∧
    decodeWord 0x8128 = none ∧ decodeWord 0x812D = none ∧ decodeWord 0x812F = none ∧ decodeWord 0xE29F = none ∧
    decodeWord 0xF000 = none ∧ decodeWord 0xF130 = none ∧ decodeWord 0xF185 = none := by decide

/-- The high byte comes first, and what follows is left alone (R70). -/
theorem test_decode_bytes :
    decode [0x12, 0x04, 0xAA] = .ok (.jp 0x204, [0xAA]) ∧ decode [0x12] = .error .tooShort ∧
    decode [0x80, 0x08] = .error (.invalidOpcode 0x8008) := by decide

theorem test_decodeTableWord : decodeTableWord 16 0xD012 = some (.drw 0 1 2) ∧ decodeTableWord 16 0x8008 = none := by decide

/-! ### One step -/

/-- The reset state with the opcode word at address `a`, the pc there. -/
def at_ (a : Nat) (word : Nat) (s : State) : State :=
  State.withFetchWord { s with pc := BitVec.ofNat 16 a } 16 word

/-- The state with these commands pending from the host. -/
def pending (cs : List Command) (s : State) : State := { s with host := { s.host with inbox := cs } }

/-- What a view says after the TICK that carries 0xA7; none if the step stopped. -/
def afterTick {α : Type} (view : State → α) (s : State) : Option α :=
  match step (pending [.tick 0xA7] s) with
  | .next t => some (view t)
  | _ => none

/-- What a view says after a command. -/
def afterCommand {α : Type} (view : State → α) (c : Command) (s : State) : Option α :=
  match perform c s with
  | .next t => some (view t)
  | _ => none

/-- The reset state with V[x] = v. -/
def withReg (x : RegIx) (v : Byte) : State := State.reset.setReg x v

/-- The reset state with V[x] = v and V[y] = w. -/
def withRegs (x y : RegIx) (v w : Byte) : State := (State.reset.setReg x v).setReg y w

/-- The reset state with I and one register set. -/
def withIndex (i : Word) (x : RegIx) (v : Byte) : State := (withReg x v).setI i

/-- The reset state with `sp` return addresses held, slot `k` holding `v`. -/
def withStack (sp : Fin 17) (k : Fin 16) (v : Word) : State :=
  { State.reset with sp := sp, stack := State.reset.stack.set k.val v k.isLt }

/-- The reset state with one key pressed. -/
def withKey (k : Fin 16) : State := { State.reset with keys := State.reset.keys.set k.val true k.isLt }

/-- The reset state with a fault latched. -/
def faulted : State := State.reset.raise .stackFault

/-- R100's example. -/
theorem test_nop : afterTick (fun t => (t.pc, t.fault)) (at_ 0x200 0x0000 State.reset) = some (0x202, none) := by decide

/-- R150. -/
theorem test_cls : afterTick (fun t => (t.pixel 0, t.pixel 2047, t.reg 15))
    (at_ 0x200 0x00E0 { withReg 15 7 with display := Vector.replicate 32 (BitVec.allOnes 64) }) = some (false, false, 7) := by decide

/-- R101's example; and pop at 0. -/
theorem test_ret : afterTick (fun t => (t.pc, t.sp)) (at_ 0x300 0x00EE (withStack 1 0 0x206)) = some (0x206, 0) := by decide
theorem test_ret_empty : afterTick (fun t => (t.pc, t.sp, t.fault)) (at_ 0x300 0x00EE State.reset) =
    some (0x300, 0, some .stackFault) := by decide

/-- R102's example. -/
theorem test_jp : afterTick (fun t => t.pc) (at_ 0x20A 0x1204 State.reset) = some 0x204 := by decide

/-- R103's example; and push at 16. -/
theorem test_call : afterTick (fun t => (t.pc, t.sp, t.stack.get 0)) (at_ 0x204 0x2208 State.reset) =
    some (0x208, 1, 0x206) := by decide
theorem test_call_full : afterTick (fun t => (t.pc, t.sp, t.fault)) (at_ 0x204 0x2208 (withStack 16 0 0)) =
    some (0x204, 16, some .stackFault) := by decide

/-- R104's examples. -/
theorem test_se_imm : afterTick (fun t => t.pc) (at_ 0x208 0x3100 (withReg 1 0)) = some 0x20C ∧
    afterTick (fun t => t.pc) (at_ 0x208 0x3100 (withReg 1 4)) = some 0x20A := by decide

/-- R105's examples. -/
theorem test_sne_imm : afterTick (fun t => t.pc) (at_ 0x300 0x4A10 (withReg 10 0x11)) = some 0x304 ∧
    afterTick (fun t => t.pc) (at_ 0x300 0x4A10 (withReg 10 0x10)) = some 0x302 := by decide

/-- R106's example. -/
theorem test_se_reg : afterTick (fun t => t.pc) (at_ 0x200 0x5120 (withRegs 1 2 7 7)) = some 0x204 := by decide

/-- R107's example. -/
theorem test_sne_reg : afterTick (fun t => t.pc) (at_ 0x200 0x9120 (withRegs 1 2 7 8)) = some 0x204 := by decide

/-- R108's examples. -/
theorem test_jp_v0 : afterTick (fun t => t.pc) (at_ 0x200 0xB300 (withReg 0 0x10)) = some 0x310 ∧
    afterTick (fun t => t.pc) (at_ 0x200 0xBFFF (withReg 0 0xFF)) = some 0x10FE := by decide

/-- R120's example. -/
theorem test_ld_imm : afterTick (fun t => t.reg 1) (at_ 0x200 0x6105 State.reset) = some 5 := by decide

/-- R121's example; VF stays. -/
theorem test_add_imm : afterTick (fun t => (t.reg 1, t.reg 15)) (at_ 0x200 0x71FF (withRegs 1 15 5 9)) = some (4, 9) := by decide

/-- R122's example. -/
theorem test_ld_reg : afterTick (fun t => t.reg 14) (at_ 0x200 0x8EF0 (withReg 15 1)) = some 1 := by decide

/-- The examples of R123, R124, R125. -/
theorem test_or : afterTick (fun t => t.reg 1) (at_ 0x200 0x8121 (withRegs 1 2 0x0F 0xF0)) = some 0xFF := by decide
theorem test_and : afterTick (fun t => t.reg 1) (at_ 0x200 0x8122 (withRegs 1 2 0x3C 0x0F)) = some 0x0C := by decide
theorem test_xor : afterTick (fun t => t.reg 1) (at_ 0x200 0x8123 (withRegs 1 2 0xFF 0x0F)) = some 0xF0 := by decide

/-- R127's example; with x = 15 the carry is what stays. -/
theorem test_add_reg : afterTick (fun t => (t.reg 1, t.reg 15)) (at_ 0x200 0x8124 (withRegs 1 2 250 10)) = some (4, 1) := by decide
theorem test_add_reg_vf : afterTick (fun t => t.reg 15) (at_ 0x200 0x8F24 (withRegs 15 2 250 3)) = some 0 := by decide

/-- R128's example; y = 15 reads the old VF. -/
theorem test_sub : afterTick (fun t => (t.reg 1, t.reg 15)) (at_ 0x200 0x8125 (withRegs 1 2 5 10)) = some (251, 0) := by decide
theorem test_sub_vf : afterTick (fun t => (t.reg 1, t.reg 15)) (at_ 0x200 0x81F5 (withRegs 1 15 9 9)) = some (0, 1) := by decide

/-- R129's example; x = 15 ends 0 (decision D8). -/
theorem test_shr : afterTick (fun t => (t.reg 1, t.reg 15)) (at_ 0x200 0x8106 (withReg 1 5)) = some (2, 1) := by decide
theorem test_shr_vf : afterTick (fun t => t.reg 15) (at_ 0x200 0x8F06 (withReg 15 0xFF)) = some 0 := by decide

/-- R130's examples. -/
theorem test_subn : afterTick (fun t => (t.reg 1, t.reg 15)) (at_ 0x200 0x8127 (withRegs 1 2 10 5)) = some (251, 0) ∧
    afterTick (fun t => (t.reg 1, t.reg 15)) (at_ 0x200 0x8127 (withRegs 1 2 5 10)) = some (5, 1) := by decide

/-- R131's example; x = 15 ends 2 times its old bit 7 (decision D8). -/
theorem test_shl : afterTick (fun t => (t.reg 1, t.reg 15)) (at_ 0x200 0x810E (withReg 1 0x81)) = some (2, 1) := by decide
theorem test_shl_vf : afterTick (fun t => t.reg 15) (at_ 0x200 0x8F0E (withReg 15 0xC1)) = some 2 := by decide

/-- R132's example. -/
theorem test_rnd : afterTick (fun t => t.reg 3) (at_ 0x200 0xC30F State.reset) = some 7 := by decide

/-- R140's example. -/
theorem test_ld_i : afterTick (fun t => t.I) (at_ 0x200 0xA300 State.reset) = some 0x300 := by decide

/-- R141's example and its wrap at 16 bits. -/
theorem test_add_i : afterTick (fun t => t.I) (at_ 0x200 0xF21E (withIndex 0x300 2 0x10)) = some 0x310 ∧
    afterTick (fun t => t.I) (at_ 0x200 0xF21E (withIndex 0xFFFF 2 1)) = some 0 := by decide

/-- R142's example; a byte above 15 is not masked (its greatest result is 1275). -/
theorem test_ld_f : afterTick (fun t => t.I) (at_ 0x200 0xF029 (withReg 0 0x0A)) = some 50 ∧
    afterTick (fun t => t.I) (at_ 0x200 0xF029 (withReg 0 0xFF)) = some 1275 := by decide

/-- R143's example; a BCD whose third byte is outside writes nothing. -/
theorem test_bcd : afterTick (fun t => (t.byte 0x300, t.byte 0x301, t.byte 0x302, t.I))
    (at_ 0x200 0xF133 (withIndex 0x300 1 255)) = some (2, 5, 5, 0x300) := by decide
theorem test_bcd_edge : afterTick (fun t => (t.byte 4094, t.pc, t.fault))
    (at_ 0x200 0xF133 (withIndex 4094 1 255)) = some (0, 0x200, some .memoryFault) := by decide

/-- R144's example; the last byte of memory can be stored to. -/
theorem test_store : afterTick (fun t => (t.byte 0x400, t.byte 0x401, t.byte 0x402, t.I))
    (at_ 0x200 0xF255 ((withRegs 0 1 1 2).setReg 2 3 |>.setI 0x400)) = some (1, 2, 3, 0x400) := by decide
theorem test_store_edge : afterTick (fun t => (t.byte 4095, t.fault))
    (at_ 0x200 0xF155 ((withRegs 0 1 1 2).setI 4094)) = some (2, none) := by decide

/-- R145's example; a LOAD that runs over the end writes no register. -/
theorem test_load : afterTick (fun t => (t.reg 0, t.reg 1, t.reg 2, t.I))
    (at_ 0x200 0xF265 { State.reset with I := 0x300, mem := [(0x300, 2), (0x301, 3), (0x302, 4)] }) =
    some (2, 3, 4, 0x300) := by decide
theorem test_load_edge : afterTick (fun t => (t.reg 0, t.fault))
    (at_ 0x200 0xF165 (withIndex 4095 0 9)) = some (9, some .memoryFault) := by decide

/-- R152's example: the lit pixels are 3, 60, 1986, 1987, 2044, 2045. -/
theorem test_drw : afterTick (fun t => ([3, 60, 1986, 1987, 2044, 2045].all t.pixel,
      [0, 2, 4, 59, 61, 63, 64, 124, 1984, 1985, 1988, 2043, 2046, 2047].any t.pixel, t.reg 15))
    (at_ 0x200 0xD012 { withRegs 0 1 60 31 with I := 0x20E, mem := [(0x20E, 0xC3), (0x20F, 0x81)] }) =
    some (true, false, 0) := by decide

/-- R152: height 0 draws nothing, sets VF to 0 and cannot fault. -/
theorem test_drw_empty : afterTick (fun t => (t.pixel 5, t.reg 15, t.fault))
    (at_ 0x200 0xD010 { withIndex 0xFFFF 15 5 with display := Vector.replicate 32 (BitVec.allOnes 64) }) = some (true, 0, none) := by decide

/-- R160's examples; an index above 15 faults. -/
theorem test_skp : afterTick (fun t => t.pc) (at_ 0x200 0xE29E ((withKey 5).setReg 2 5)) = some 0x204 ∧
    afterTick (fun t => t.pc) (at_ 0x200 0xE29E (withReg 2 5)) = some 0x202 := by decide
theorem test_skp_range : afterTick (fun t => (t.pc, t.fault)) (at_ 0x200 0xE29E (withReg 2 16)) =
    some (0x200, some .memoryFault) := by decide

/-- R161's examples. -/
theorem test_sknp : afterTick (fun t => t.pc) (at_ 0x200 0xE2A1 (withReg 2 5)) = some 0x204 ∧
    afterTick (fun t => t.pc) (at_ 0x200 0xE2A1 ((withKey 5).setReg 2 5)) = some 0x202 := by decide

/-- R162's examples. -/
theorem test_waitkey_none : afterTick (fun t => (t.pc, t.reg 1)) (at_ 0x200 0xF10A (withReg 1 9)) = some (0x200, 9) := by decide
theorem test_waitkey_lowest : afterTick (fun t => (t.pc, t.reg 1))
    (at_ 0x200 0xF10A { withKey 7 with keys := (withKey 7).keys.set 3 true }) = some (0x202, 3) := by decide

/-- The examples of R163, R164, R165. -/
theorem test_ld_vx_dt : afterTick (fun t => t.reg 2) (at_ 0x200 0xF207 { State.reset with dt := 2 }) = some 2 := by decide
theorem test_ld_dt_vx : afterTick (fun t => t.dt) (at_ 0x200 0xF115 (withReg 1 3)) = some 3 := by decide
theorem test_ld_st_vx : afterTick (fun t => t.st) (at_ 0x200 0xF318 (withReg 3 1)) = some 1 := by decide

/-- R91: a fetch at 4095 faults although that byte exists; R78: an illegal word is recorded whole. -/
theorem test_fetch_edge : afterTick (fun t => (t.pc, t.fault)) { State.reset with pc := 4095 } =
    some (4095, some .memoryFault) := by decide
theorem test_illegal : afterTick (fun t => (t.pc, t.fault)) (at_ 0x200 0x8008 State.reset) =
    some (0x200, some (.invalidOpcode 0x8008)) := by decide

/-! ### Commands -/

/-- Rows of R176. -/
theorem test_tick_timers : afterCommand (fun t => (t.dt, t.st)) .tickTimers { State.reset with dt := 5, st := 2 } = some (4, 1) ∧
    reply .tickTimers { State.reset with dt := 5, st := 2 } = .buzzer false := by decide
theorem test_buzzer : afterCommand (fun t => (t.dt, t.st)) .tickTimers { State.reset with st := 1 } = some (0, 0) ∧
    reply .tickTimers { State.reset with st := 1 } = .buzzer true ∧ reply .tickTimers State.reset = .buzzer false := by decide

/-- R183: one key; an index above 15. -/
theorem test_keypress : afterCommand (fun t => (t.keys.get 15, t.keys.get 14)) (.keypress 15 true) State.reset = some (true, false) ∧
    afterCommand (fun t => t.fault) (.keypress 16 true) State.reset = some (some .memoryFault) := by decide

/-- R185: the bytes go to 512 and up, and a second LOAD faults. -/
theorem test_load_rom : afterCommand (fun t => (t.byte 512, t.byte 513, t.loaded)) (.load [0x12, 0x04]) State.reset =
      some (0x12, 0x04, true) ∧
    afterCommand (fun t => (t.byte 512, t.fault)) (.load [0x12]) { State.reset with loaded := true } =
      some (0, some .loadFault) := by decide

/-- R230: RESET from the halted state. -/
theorem test_reset : afterCommand (fun t => (t.fault, t.pc, t.sp, t.dt)) .reset { faulted with pc := 7, sp := 3, dt := 1 } =
    some (none, 0x200, 0, 0) := by decide

/-- R231: the font is at 0 to 79, whatever its bytes, and the rest is 0. -/
theorem test_reset_memory : State.reset.byte 79 = Config.font.getD 79 0 ∧ State.reset.byte 80 = 0 ∧
    State.reset.byte 512 = 0 ∧ Config.font.length = 80 := by decide

/-- R174: two TICK_TIMERS between two TICKs, in the host's order. -/
theorem test_interleaving :
    (match core.run 4 (pending [.tick 0, .tickTimers, .tickTimers, .tick 0] { State.reset with dt := 9 }) with
      | .next t => some (t.dt, t.pc, t.host.inbox)
      | _ => none) = some (7, 0x204, []) := by decide

/-- R211: a halted block ignores a TICK. -/
theorem test_halted : afterTick (fun t => t.pc) (at_ 0x200 0x6105 State.reset |>.raise .stackFault) = some 0x200 := by decide

/-- withFetchWord: the next step runs the word. -/
theorem test_with_fetch_word :
    (match step (State.reset.withFetchWord 16 0x6105) with
      | .next t => some (t.reg 1)
      | _ => none) = some 5 := by decide

/-- Placing a word moves the count of draws on, so the next placed word carries another free byte (R184). -/
theorem test_placed_bytes :
    ((State.reset.withFetchWord 16 0xC0FF).withFetchWord 16 0xC0FF).host.inbox = [.tick (Config.freshByte 1)] := rfl

/-! ### Witnesses: states and operands that meet the hypotheses of the obligations -/

theorem witness_DecodeOfEncodeIsTheInstruction :
    (Instr.drw 15 15 15).wellFormed = true ∧ (Instr.jpV0 0xFFF).wellFormed = true := by decide
theorem witness_EncodeOfDecodeIsTheWord : decodeWord 0xDFFF = some (.drw 15 15 15) := by decide
theorem witness_DecoderReadsTheOpcodeTable : (⟨"LOAD", 0xF0FF, 0xF065⟩ : OpcodeRow) ∈ opcodeRows := by decide
theorem witness_OpcodeRowsAreDisjoint : ∃ p ∈ opcodeRows, p.matchesWord 0x5120 = true := by decide
theorem witness_IllegalWordsRaiseInvalidOpcode :
    (at_ 0xFFE 0x8008 State.reset).fault = none ∧ (at_ 0xFFE 0x8008 State.reset).fetch = some 0x8008 ∧
    decodeWord 0x8008 = none := by decide
theorem witness_FetchIsBigEndian :
    ({ State.reset with pc := 4094 } : State).pc.toNat ≤ 4094 ∧ State.reset.fault = none ∧
    State.reset.loaded = false ∧ State.reset.pc = 512#16 := by decide
theorem witness_FetchOutsideMemoryFaults :
    ({ State.reset with pc := 4095 } : State).fault = none ∧ 4094 < ({ State.reset with pc := 4095 } : State).pc.toNat := by decide
theorem witness_StepRunsTheDecodedInstruction :
    (at_ 4094 0x1204 State.reset).fault = none ∧ (at_ 4094 0x1204 State.reset).pc.toNat = 4094 ∧
    decode [(at_ 4094 0x1204 State.reset).byte 4094, (at_ 4094 0x1204 State.reset).byte 4095] = .ok (.jp 0x204, []) ∧
    State.reset.host.inbox = [] := by decide
theorem witness_StepRunsTheDecodedInstruction_pending :
    (at_ 4094 0x1204 State.reset).host.inbox = .tick (Config.freshByte 0) :: [] := rfl
theorem witness_PlacedWordRunsNext : decodeTableWord 16 0x1204 = some (.jp 0x204) := by decide
theorem witness_OnlyListedInstructionsMoveThePc :
    (withIndex 4096 0 0).fault = none ∧ controlsPc (.store 0) = false ∧
    (∃ t, exec (.store 0) (withIndex 4096 0 0) = .next t) ∧ ∃ t, exec (.store 0) State.reset = .next t :=
  ⟨by decide, by decide, ⟨_, rfl⟩, ⟨_, rfl⟩⟩
theorem witness_NopOnlyAdvances :
    0x0FFF < 0x1000 ∧ State.reset.mem = [] ∧ ({ State.reset with pc := 4094 } : State).fault = none ∧
    ({ State.reset with pc := 4094 } : State).byte 4094 = 0 ∧ ({ State.reset with pc := 4094 } : State).byte 4095 = 0 ∧
    4094 < ({ State.reset with pc := 4096 } : State).pc.toNat := by decide
theorem witness_RetPopsTheReturnAddress :
    (withStack 1 0 0x206).sp.val = (0 : Fin 16).val + 1 ∧ (withStack 16 15 0x206).sp.val = (15 : Fin 16).val + 1 ∧
    State.reset.sp.val = 0 := by decide
theorem witness_JpGoesToTheAddress : 4095 < 4096 ∧ 4094 < (0xFFF#16).toNat := by decide
theorem witness_CallPushesTheNextAddress :
    State.reset.sp.val = (0 : Fin 16).val ∧ (withStack 15 0 0).sp.val = (15 : Fin 16).val ∧
    (withStack 16 0 0).sp.val = 16 := by decide
theorem witness_SkipsOnTwoRegisters : 1 ≤ 15 ∧ 15 < 16 := by decide
theorem witness_JpV0AddsRegisterZero : 4095 < 4096 ∧ 4095 ≤ ((withReg 0 0).reg 0).toNat + 4095 ∧
    4095 ≤ ((withReg 0 255).reg 0).toNat + 3840 := by decide
theorem witness_IndexRegisterLoads : 4095 < 4096 := by decide
/-- For AddRegisterSetsCarry, SubSetsNotBorrow, SubnSetsNotBorrow and ShiftsSetTheBitShiftedOut. -/
theorem witness_flag_destinations : (1 : RegIx) ≠ VF ∧ (15 : RegIx) = VF := by decide
theorem witness_BcdStoresThreeDigits : (withIndex 4093 1 255).ea 2 < 4096 ∧ 4096 ≤ (withIndex 4094 1 255).ea 2 := by decide
theorem witness_StoreWritesRegistersUpToX :
    (withIndex 4080 0 1).ea (15 : RegIx).val < 4096 ∧ 4096 ≤ (withIndex 4081 0 1).ea (15 : RegIx).val := by decide
theorem witness_LoadReadsRegistersUpToX :
    (withIndex 4095 0 1).ea (0 : RegIx).val < 4096 ∧ 4096 ≤ (withIndex 4096 0 1).ea (0 : RegIx).val := by decide
theorem witness_IncrementSwitchTouchesOnlyTheIndex :
    (∃ t, exec (.store 15) (withIndex 4080 0 1) = .next t) ∧ (∃ t, exec (.load 15) (withIndex 4080 0 1) = .next t) ∧
    (withIndex 4080 0 1).ea (15 : RegIx).val < 4096 ∧ 4096 ≤ (withIndex 4081 0 1).ea (15 : RegIx).val :=
  ⟨⟨_, rfl⟩, ⟨_, rfl⟩, by decide, by decide⟩
theorem witness_StoredCodeIsFetchedNext :
    1 ≤ (1 : RegIx).val ∧ (withIndex 0x202 0 0x12).pc.toNat + 2 = (withIndex 0x202 0 0x12).I.toNat ∧
    (withIndex 0x202 0 0x12).ea (1 : RegIx).val < 4096 ∧ ∃ t, exec (.store 1) (withIndex 0x202 0 0x12) = .next t :=
  ⟨by decide, by decide, by decide, ⟨_, rfl⟩⟩
theorem witness_DrwFlipsWhatTheSpriteCovers :
    15 < 16 ∧ 1 ≤ 15 ∧ (withIndex 4081 0 0).ea (15 - 1) < 4096 ∧ 4096 ≤ (withIndex 4082 0 0).ea (15 - 1) := by decide
/-- The first draw leaves V[0] and V[1] as they were, so the second is at the same origin. -/
theorem witness_DrawingTwiceRestoresThePixels :
    ∃ t u, exec (.drw 0 1 1) State.reset = .next t ∧ t.reg 0 = State.reset.reg 0 ∧ t.reg 1 = State.reset.reg 1 ∧
      exec (.drw 0 1 1) t = .next u ∧ State.reset.ea (1 - 1) < 4096 :=
  ⟨_, _, rfl, rfl, rfl, rfl, by decide⟩
theorem witness_KeySkipsReadTheLevel :
    ((withReg 2 15).reg 2).toNat = (15 : Fin 16).val ∧ 15 < ((withReg 2 16).reg 2).toNat := by decide
theorem witness_WaitkeyTakesTheLowestKey :
    (withKey 15).keys.get 15 = true ∧ (∀ j, j < (15 : Fin 16) → (withKey 15).keys.get j = false) ∧
    ∀ k, State.reset.keys.get k = false := by decide
theorem witness_TimerMoves : ∃ t, exec (.ldStVx 3) State.reset = .next t := ⟨_, rfl⟩
theorem witness_FaultsHaveExactlyTheListedCauses :
    State.reset.fault = none ∧ executeFault .ret State.reset = some .stackFault ∧
    4094 < ({ State.reset with pc := 4096 } : State).pc.toNat := by decide
theorem witness_AFaultingStepCommitsNothing :
    (at_ 0x200 0x00EE State.reset).fault = none ∧ ∃ t, step (at_ 0x200 0x00EE State.reset) = .next t ∧ t.fault ≠ none :=
  ⟨by decide, _, rfl, by decide⟩
theorem witness_OnlyResetLeavesTheHaltedState : faulted.fault ≠ none ∧ Command.tick 0 ≠ .reset := by decide
theorem witness_EveryStepHasANextState :
    faulted.fault ≠ none ∧ (nextCommand (pending [.tickTimers] faulted)).1 ≠ .reset := by decide
theorem witness_InstructionsReachOnlyTheirState : ∃ t, exec .cls State.reset = .next t := ⟨_, rfl⟩
theorem witness_RegistersChangeOnlyWhereWritten :
    ¬ mayWriteReg (.addReg 1 2) 3 ∧ ∃ t, exec (.addReg 1 2) State.reset = .next t :=
  ⟨by simp only [mayWriteReg]; decide, _, rfl⟩
theorem witness_OnlyRndReadsTheRandomByte : (∀ x nn, Instr.cls ≠ .rnd x nn) ∧ ∃ t, exec .cls State.reset = .next t :=
  ⟨fun _ _ => by simp, _, rfl⟩
/-- Two states that differ in slot 5 with one address held. -/
theorem witness_StaleSlotsAreUnobservable :
    SameLive (withStack 1 5 0) (withStack 1 5 7) ∧ (withStack 1 5 0).stack ≠ (withStack 1 5 7).stack ∧
    ∃ s', exec .ret (withStack 1 5 0) = .next s' :=
  ⟨⟨rfl, by decide⟩, by decide, _, rfl⟩
theorem witness_SelfJumpIdles :
    (at_ 0x200 0x1200 State.reset).fault = none ∧ (at_ 0x200 0x1200 State.reset).pc.toNat ≤ 4094 ∧
    (at_ 0x200 0x1200 State.reset).fetch =
      some (BitVec.ofNat 16 (0x1000 + (at_ 0x200 0x1200 State.reset).pc.toNat)) := by decide
/-- A state with a return address, a byte listed and the greatest pc meets the invariant. -/
theorem witness_StepKeepsTheInvariant :
    BlockInv (pending [.tick 0] { withStack 1 0 0x206 with pc := 4350, mem := [(0x300, 1)] }) ∧
    ∃ t, step (pending [.tick 0] { withStack 1 0 0x206 with pc := 4350, mem := [(0x300, 1)] }) = .next t :=
  ⟨by unfold BlockInv PcInRange ReturnsInRange; decide, _, rfl⟩
theorem witness_PcArithmeticNeverWraps :
    (at_ 4094 0x3000 State.reset).fetch = some 0x3000 ∧ decodeWord 0x3000 = some (.seImm 0 0) ∧
    (∃ t, exec (.seImm 0 0) (at_ 4094 0x3000 State.reset) = .next t) ∧
    (∀ nnn, Instr.seImm 0 0 ≠ .jp nnn ∧ Instr.seImm 0 0 ≠ .call nnn ∧ Instr.seImm 0 0 ≠ .jpV0 nnn) ∧
    Instr.seImm 0 0 ≠ .ret :=
  ⟨by decide, by decide, ⟨_, rfl⟩, fun _ => by simp, by decide⟩
theorem witness_ResetIsIdempotent :
    ∃ t u, perform .reset faulted = .next t ∧ perform .reset t = .next u ∧ faulted.host = State.reset.host ∧
      ∃ t', perform .reset State.reset = .next t' :=
  ⟨_, _, rfl, rfl, rfl, _, rfl⟩
/-- For TimersDecayToZero, BuzzerSoundsOnceAtExpiry, KeypressSetsOneKey and LoadCopiesTheRomOnce. -/
theorem witness_commands_while_running : State.reset.fault = none ∧ 15 < 16 ∧ State.reset.loaded = false ∧
    ({ State.reset with loaded := true } : State).loaded = true := by decide
theorem witness_LoadCopiesTheRomOnce :
    (List.replicate 3584 (0 : Byte)).length ≤ 3584 ∧ 3584 < (List.replicate 3585 (0 : Byte)).length := by
  rw [List.length_replicate, List.length_replicate]; omega
theorem witness_DisplayRepliesThePixels : Command.tick 0 ≠ .display ∧ Command.tick 0 ≠ .tickTimers := by decide

theorem witness_TimersChangeOnlyByTheirCauses :
    (∃ t, perform (.tick 0) (at_ 0x200 0xF115 (withReg 1 3)) = .next t ∧ t.dt ≠ (at_ 0x200 0xF115 (withReg 1 3)).dt) ∧
    ∃ t, perform (.tick 0) (at_ 0x200 0xF318 (withReg 3 1)) = .next t ∧ t.st ≠ (at_ 0x200 0xF318 (withReg 3 1)).st :=
  ⟨⟨_, rfl, by decide⟩, ⟨_, rfl, by decide⟩⟩
theorem witness_EveryOrderOfCommandsRuns :
    (pending [.tickTimers, .tick 0, .display] State.reset).host.inbox = [.tickTimers, .tick 0] ++ [.display] := by decide

end Sys2Proof.Tests
end

section
/-! PROOFS. Memory (20_memory.md): the two bytes at the pc are fetched big-endian, and LOAD puts a ROM where the pc starts. -/

namespace Sys2Proof.Machine

/-- The word that a fetch inside memory returns, as a number (R54). -/
theorem State.fetch_bigEndian {s : State} (hpc : s.pc.toNat ≤ 4094) :
    ∃ op, s.fetch = some op ∧
      op.toNat = 256 * (s.byte s.pc.toNat).toNat + (s.byte (s.pc.toNat + 1)).toNat :=
  ⟨_, by rw [State.fetch_eq, if_pos hpc], wordOfBytes_toNat _ _⟩

@[simp] theorem pc_loadRom (bytes : List Byte) (s : State) : (loadRom bytes s).pc = s.pc := by
  unfold loadRom
  split
  · rfl
  · split
    · rfl
    · split <;> rfl

/-- A ROM that fits lies verbatim at 512 and up, and every other byte is as before (R185). -/
theorem byte_loadRom_of_fits {s : State} (h : s.fault = none) (hl : s.loaded = false) {bytes : List Byte}
    (hb : bytes.length ≤ 3584) (a : Nat) :
    (loadRom bytes s).byte a =
      if 512 ≤ a ∧ a < 512 + bytes.length then bytes.getD (a - 512) 0#8 else s.byte a := by
  obtain ⟨m, hm, hload⟩ := loadRom_of_fits h hl hb
  rw [hload]
  exact Memory.get_writeBlock hm a

/-- Settles O7: the fetch rule at any pc inside memory, and the same rule at 512 on the bytes that LOAD put there. -/
theorem fetchIsBigEndian : Obligations.FetchIsBigEndian := by
  refine ⟨fun s hpc => State.fetch_bigEndian hpc, fun s b0 b1 hf hl hpc => ?_⟩
  have hat : (loadRom [b0, b1] s).pc.toNat = 512 := by simp [hpc]
  have hbyte := byte_loadRom_of_fits hf hl (bytes := [b0, b1]) (by simp)
  have h0 : (loadRom [b0, b1] s).byte 512 = b0 := by simp [hbyte]
  have h1 : (loadRom [b0, b1] s).byte (512 + 1) = b1 := by simp [hbyte]
  have hfetch := State.fetch_bigEndian (s := loadRom [b0, b1] s) (by omega)
  rwa [hat, h0, h1] at hfetch

end Sys2Proof.Machine
end

section
/-! PROOFS. The illegal words (30_encoding.md, R78): which words have no instruction, which match no row, and what a TICK
does with one. -/

namespace Sys2Proof.Machine

/-- The list of R78: the words, as numbers, that are no instruction. -/
def IllegalWord (w : Nat) : Prop :=
  (w < 0x1000 ∧ w ≠ 0x0000 ∧ w ≠ 0x00E0 ∧ w ≠ 0x00EE) ∨
  ((w / 4096 = 5 ∨ w / 4096 = 9) ∧ w % 16 ≠ 0) ∨
  (w / 4096 = 8 ∧ w % 16 ∈ [8, 9, 0xA, 0xB, 0xC, 0xD, 0xF]) ∨
  (w / 4096 = 0xE ∧ w % 256 ∉ [0x9E, 0xA1]) ∨
  (w / 4096 = 0xF ∧ w % 256 ∉ [0x07, 0x0A, 0x15, 0x18, 0x1E, 0x29, 0x33, 0x55, 0x65])

/-! ### The decoder's families -/

theorem decodeFam0_eq_none_iff (op : Word) :
    decodeFam0 op = none ↔ op.toNat ≠ 0x0000 ∧ op.toNat ≠ 0x00E0 ∧ op.toNat ≠ 0x00EE := by
  simp [decodeFam0, BitVec.toNat_eq, ite_eq_iff]

theorem decodeFam8_eq_none_iff (op : Word) :
    decodeFam8 op = none ↔ op.toNat % 16 ∈ [8, 9, 0xA, 0xB, 0xC, 0xD, 0xF] := by
  have hn : op.toNat % 16 < 16 := Nat.mod_lt _ (by decide)
  unfold decodeFam8
  rw [fieldN_eq]
  generalize op.toNat % 16 = n at hn ⊢
  interval_cases n <;> simp

theorem decodeFamE_eq_none_iff (op : Word) : decodeFamE op = none ↔ op.toNat % 256 ∉ [0x9E, 0xA1] := by
  simp [decodeFamE, BitVec.toNat_eq, fieldNN_toNat, ite_eq_iff]

theorem decodeFamF_eq_none_iff (op : Word) :
    decodeFamF op = none ↔ op.toNat % 256 ∉ [0x07, 0x0A, 0x15, 0x18, 0x1E, 0x29, 0x33, 0x55, 0x65] := by
  simp [decodeFamF, BitVec.toNat_eq, fieldNN_toNat, ite_eq_iff]

/-- The words without an instruction are those of the list (R76, R78). -/
theorem decodeWord_eq_none_iff (op : Word) : decodeWord op = none ↔ IllegalWord op.toNat := by
  have hlt : op.toNat / 4096 < 16 := by omega
  rw [decodeWord, fieldFam_eq, IllegalWord, ← Nat.div_eq_zero_iff_lt (k := 0x1000) (by decide)]
  generalize op.toNat / 4096 = fam at hlt
  match fam, hlt with
  | 0x0, _ => simp [decodeFam0_eq_none_iff]
  | 0x5, _ | 0x9, _ => simp [fieldN_eq]
  | 0x8, _ => simp [decodeFam8_eq_none_iff]
  | 0xE, _ => simp [decodeFamE_eq_none_iff]
  | 0xF, _ => simp [decodeFamF_eq_none_iff]
  | 0x1, _ | 0x2, _ | 0x3, _ | 0x4, _ | 0x6, _ | 0x7, _ | 0xA, _ | 0xB, _ | 0xC, _ | 0xD, _ => simp
  | _ + 16, hlt => omega

/-! ### The rows of R75: a pattern under its mask, by digits -/

theorem fieldFam_lt (op : Word) : fieldFam op < 16 := (op.extractLsb' 12 4).isLt

/-- A word is its four digits. -/
theorem wordXYN_fields (op : Word) : wordXYN (fieldFam op) (fieldX op) (fieldY op) (fieldN op) = op := by
  apply BitVec.eq_of_toNat_eq
  rw [wordXYN_toNat _ _ _ _ (fieldFam_lt op), fieldFam_eq, fieldX_val, fieldY_val, fieldN_eq]
  omega

/-- A word is its family, its register digit and its low byte. -/
theorem wordXI_fields (op : Word) : wordXI (fieldFam op) (fieldX op) (fieldNN op) = op := by
  apply BitVec.eq_of_toNat_eq
  rw [wordXI_toNat _ _ _ (fieldFam_lt op), fieldFam_eq, fieldX_val, fieldNN_toNat]
  omega

/-- A row of one word; the family digit is repeated so that every row says its family first. -/
theorem and_FFFF_eq_iff (op v : Word) :
    op &&& 0xFFFF = v ↔ op.toNat / 4096 = v.toNat / 4096 ∧ op.toNat = v.toNat := by
  rw [show op &&& 0xFFFF = op from BitVec.and_allOnes, BitVec.toNat_eq]
  omega

/-- A row of a whole family. -/
theorem and_F000_eq_iff (op v : Word) :
    op &&& 0xF000 = v ↔ op.toNat / 4096 = v.toNat / 4096 ∧ v.toNat % 4096 = 0 := by
  have hrow : op &&& 0xF000 = wordXI (fieldFam op) 0 0#8 := by
    have hand := wordXI_and (fieldFam op) (fieldX op) (fieldNN op)
    rwa [wordXI_fields] at hand
  rw [BitVec.toNat_eq, hrow, wordXI_toNat _ _ _ (fieldFam_lt op), fieldFam_eq, Fin.val_zero, BitVec.toNat_zero]
  omega

/-- A row that the last nibble selects. -/
theorem and_F00F_eq_iff (op v : Word) :
    op &&& 0xF00F = v ↔ op.toNat / 4096 = v.toNat / 4096 ∧ op.toNat % 16 = v.toNat % 4096 := by
  have hrow : op &&& 0xF00F = wordXYN (fieldFam op) 0 0 (fieldN op) := by
    have hand := wordXYN_and_sub (fieldFam op) (fieldX op) (fieldY op) (fieldN op)
    rwa [wordXYN_fields] at hand
  rw [BitVec.toNat_eq, hrow, wordXYN_toNat _ _ _ _ (fieldFam_lt op), fieldFam_eq, fieldN_eq, Fin.val_zero]
  omega

/-- A row that the low byte selects. -/
theorem and_F0FF_eq_iff (op v : Word) :
    op &&& 0xF0FF = v ↔ op.toNat / 4096 = v.toNat / 4096 ∧ op.toNat % 256 = v.toNat % 4096 := by
  have hrow : op &&& 0xF0FF = wordXI (fieldFam op) 0 (fieldNN op) := by
    have hand := wordXI_and_sub (fieldFam op) (fieldX op) (fieldNN op)
    rwa [wordXI_fields] at hand
  rw [BitVec.toNat_eq, hrow, wordXI_toNat _ _ _ (fieldFam_lt op), fieldFam_eq, fieldNN_toNat, Fin.val_zero]
  omega

/-- The words that match no row are those of the list (R75, R78). -/
theorem forall_row_ne_iff (op : Word) :
    (∀ row ∈ opcodeRows, op &&& row.mask ≠ row.value) ↔ IllegalWord op.toNat := by
  have hlt : op.toNat / 4096 < 16 := by omega
  have hn : op.toNat % 16 < 16 := Nat.mod_lt _ (by decide)
  rw [IllegalWord, ← Nat.div_eq_zero_iff_lt (k := 0x1000) (by decide)]
  simp only [opcodeRows, opcodeRowsLow, opcodeRowsHigh, List.cons_append, List.nil_append, List.forall_mem_cons,
    ne_eq, and_FFFF_eq_iff, and_F000_eq_iff, and_F00F_eq_iff, and_F0FF_eq_iff]
  generalize op.toNat / 4096 = fam at hlt
  match fam, hlt with
  | 0x8, _ =>
    generalize op.toNat % 16 = n at hn
    interval_cases n <;> simp
  | 0x0, _ | 0x1, _ | 0x2, _ | 0x3, _ | 0x4, _ | 0x5, _ | 0x6, _ | 0x7, _
  | 0x9, _ | 0xA, _ | 0xB, _ | 0xC, _ | 0xD, _ | 0xE, _ | 0xF, _ => simp
  | _ + 16, hlt => omega

/-! ### The TICK -/

theorem tick_of_illegal {s : State} (hs : s.fault = none) {op : Word} (hop : s.fetch = some op)
    (hd : decodeWord op = none) (rnd : Byte) : tick rnd s = .next ((s.withRnd rnd).raise (.invalidOpcode op)) := by
  rw [tick_running hs, runTick_of_illegal ((s.fetch_withRnd rnd).trans hop) hd]

/-- Settles O5: the decoder and the table both leave out exactly the list of R78, and a TICK that fetches an illegal word
raises InvalidOpcode with it. -/
theorem illegalWordsRaiseInvalidOpcode : Obligations.IllegalWordsRaiseInvalidOpcode := by
  refine ⟨fun w hw => ?_, fun s rnd op hs hop hd => ⟨_, tick_of_illegal hs hop hd rnd, State.fault_raise _ _⟩⟩
  have hdecode := decodeWord_eq_none_iff (BitVec.ofNat 16 w)
  refine ⟨(forall_row_ne_iff _).trans hdecode.symm, ?_⟩
  rwa [BitVec.toNat_ofNat, Nat.mod_eq_of_lt hw] at hdecode

end Sys2Proof.Machine
end

section
/-! PROOFS. Control flow (41_control_flow.md): the words of NOP, the jumps and the skips, the pc that each of them sets, and
that it sets nothing else. -/

namespace Sys2Proof

/-! ### The fields of a word that is written as a number (R71, R72) -/

/-- Family and address of a word of format A. -/
theorem fields_of_address {fam a : Nat} (hfam : fam < 16) (ha : a < 4096) :
    fieldFam (BitVec.ofNat 16 (4096 * fam + a)) = fam ∧
      fieldNNN (BitVec.ofNat 16 (4096 * fam + a)) = BitVec.ofNat 16 a := by
  refine ⟨?_, BitVec.eq_of_toNat_eq ?_⟩
  · rw [fieldFam_eq, BitVec.toNat_ofNat]
    omega
  · rw [fieldNNN_toNat, BitVec.toNat_ofNat, BitVec.toNat_ofNat]
    omega

/-- Family, register digit and low byte of a word of format XI. -/
theorem fields_of_immediate {fam : Nat} (hfam : fam < 16) (x : RegIx) (nn : Byte) :
    fieldFam (BitVec.ofNat 16 (4096 * fam + 256 * x.val + nn.toNat)) = fam ∧
      fieldX (BitVec.ofNat 16 (4096 * fam + 256 * x.val + nn.toNat)) = x ∧
      fieldNN (BitVec.ofNat 16 (4096 * fam + 256 * x.val + nn.toNat)) = nn := by
  have hx := x.isLt
  have hnn := nn.isLt
  refine ⟨?_, Fin.ext ?_, BitVec.eq_of_toNat_eq ?_⟩
  · rw [fieldFam_eq, BitVec.toNat_ofNat]
    omega
  · rw [fieldX_val, BitVec.toNat_ofNat]
    omega
  · rw [fieldNN_toNat, BitVec.toNat_ofNat]
    omega

/-- The four digits of a word of format XYN. -/
theorem fields_of_digits {fam n : Nat} (hfam : fam < 16) (x y : RegIx) (hn : n < 16) :
    fieldFam (BitVec.ofNat 16 (4096 * fam + 256 * x.val + 16 * y.val + n)) = fam ∧
      fieldX (BitVec.ofNat 16 (4096 * fam + 256 * x.val + 16 * y.val + n)) = x ∧
      fieldY (BitVec.ofNat 16 (4096 * fam + 256 * x.val + 16 * y.val + n)) = y ∧
      fieldN (BitVec.ofNat 16 (4096 * fam + 256 * x.val + 16 * y.val + n)) = n := by
  have hx := x.isLt
  have hy := y.isLt
  refine ⟨?_, Fin.ext ?_, Fin.ext ?_, ?_⟩
  · rw [fieldFam_eq, BitVec.toNat_ofNat]
    omega
  · rw [fieldX_val, BitVec.toNat_ofNat]
    omega
  · rw [fieldY_val, BitVec.toNat_ofNat]
    omega
  · rw [fieldN_eq, BitVec.toNat_ofNat]
    omega

end Sys2Proof

namespace Sys2Proof.Machine

/-! ### The words -/

theorem wordIs_nop : WordIs 0x0000 .nop := by
  unfold WordIs
  decide

theorem wordIs_jp {a : Nat} (ha : a < 4096) : WordIs (0x1000 + a) (.jp (BitVec.ofNat 16 a)) := by
  obtain ⟨hfam, hnnn⟩ := fields_of_address (fam := 0x1) (by decide) ha
  simp [WordIs, decodeWord, hfam, hnnn]

theorem wordIs_jpV0 {a : Nat} (ha : a < 4096) : WordIs (0xB000 + a) (.jpV0 (BitVec.ofNat 16 a)) := by
  obtain ⟨hfam, hnnn⟩ := fields_of_address (fam := 0xB) (by decide) ha
  simp [WordIs, decodeWord, hfam, hnnn]

theorem wordIs_seImm (x : RegIx) (nn : Byte) : WordIs (0x3000 + 256 * x.val + nn.toNat) (.seImm x nn) := by
  obtain ⟨hfam, hx, hnn⟩ := fields_of_immediate (fam := 0x3) (by decide) x nn
  simp [WordIs, decodeWord, hfam, hx, hnn]

theorem wordIs_sneImm (x : RegIx) (nn : Byte) : WordIs (0x4000 + 256 * x.val + nn.toNat) (.sneImm x nn) := by
  obtain ⟨hfam, hx, hnn⟩ := fields_of_immediate (fam := 0x4) (by decide) x nn
  simp [WordIs, decodeWord, hfam, hx, hnn]

/-- 5XYn is SE on registers with `n` 0, and illegal with any other `n` (R76). -/
theorem decodeWord_5XYn (x y : RegIx) {n : Nat} (hn : n < 16) :
    decodeWord (BitVec.ofNat 16 (0x5000 + 256 * x.val + 16 * y.val + n)) =
      if n = 0 then some (.seReg x y) else none := by
  obtain ⟨hfam, hx, hy, hlast⟩ := fields_of_digits (fam := 0x5) (by decide) x y hn
  simp [decodeWord, hfam, hx, hy, hlast]

/-- 9XYn is SNE on registers with `n` 0, and illegal with any other `n` (R76). -/
theorem decodeWord_9XYn (x y : RegIx) {n : Nat} (hn : n < 16) :
    decodeWord (BitVec.ofNat 16 (0x9000 + 256 * x.val + 16 * y.val + n)) =
      if n = 0 then some (.sneReg x y) else none := by
  obtain ⟨hfam, hx, hy, hlast⟩ := fields_of_digits (fam := 0x9) (by decide) x y hn
  simp [decodeWord, hfam, hx, hy, hlast]

/-- A word of family 0 other than NOP, CLS and RET is illegal (R78). -/
theorem decodeWord_0NNN_eq_none {w : Nat} (hw : w < 0x1000) (hnop : w ≠ 0x0000) (hcls : w ≠ 0x00E0)
    (hret : w ≠ 0x00EE) : decodeWord (BitVec.ofNat 16 w) = none := by
  have htoNat : (BitVec.ofNat 16 w).toNat = w := by rw [BitVec.toNat_ofNat]; omega
  rw [decodeWord_eq_none_iff, htoNat]
  exact .inl ⟨hw, hnop, hcls, hret⟩

/-! ### Setting the pc, and nothing else -/

theorem UnchangedBut.trans {l : List Part} {s t u : State} (hst : UnchangedBut l s t) (htu : UnchangedBut l t u) :
    UnchangedBut l s u := by
  intro p hp
  have h₁ := hst p hp
  have h₂ := htu p hp
  cases p with
  | V | stack | keys | display | mem => exact fun k => (h₂ k).trans (h₁ k)
  | pc | I | sp | dt | st | fault | loaded | host => exact h₂.trans h₁

theorem unchangedBut_setPc (s : State) (a : Word) : UnchangedBut [.pc] s (s.setPc a) := by
  intro p hp
  cases p with
  | pc => exact absurd (List.mem_singleton.mpr rfl) hp
  | V | stack | keys | display | mem => exact fun _ => rfl
  | I | sp | dt | st | fault | loaded | host => rfl

theorem unchangedBut_withRnd (s : State) (r : Byte) : UnchangedBut [.host] s (s.withRnd r) := by
  intro p hp
  cases p with
  | host => exact absurd (List.mem_singleton.mpr rfl) hp
  | V | stack | keys | display | mem => exact fun _ => rfl
  | pc | I | sp | dt | st | fault | loaded => rfl

/-- The advance and a skip on top of it, as one new pc (R17, R92). -/
theorem State.advance_skipIf_eq_setPc (s : State) (c : Bool) :
    s.advance.skipIf c = s.setPc (if c then s.pc + 4#16 else s.pc + 2#16) := by
  rw [← State.pc_advance_skipIf]
  cases c <;> rfl

/-- A fetch finds no word exactly above 4094 (R91). -/
theorem State.fetch_eq_none_iff (s : State) : s.fetch = none ↔ 4094 < s.pc.toNat := by
  simp [State.fetch_eq]

/-! ### The instructions: the pc that each sets -/

theorem exec_nop (s : State) : exec .nop s = .next (s.setPc (s.pc + 2#16)) := rfl

theorem exec_jp (nnn : Word) (s : State) : exec (.jp nnn) s = .next (s.setPc nnn) := rfl

theorem exec_jpV0 (nnn : Word) (s : State) :
    exec (.jpV0 nnn) s = .next (s.setPc ((s.reg 0).setWidth 16 + nnn)) := rfl

/-- The sum of R108 as a number: no carry leaves the 16 bits of the pc. -/
theorem jpV0_target_toNat (v : Byte) {a : Nat} (ha : a < 4096) :
    (v.setWidth 16 + BitVec.ofNat 16 a).toNat = v.toNat + a := by
  have hv := v.isLt
  simp only [BitVec.toNat_add, BitVec.toNat_setWidth, BitVec.toNat_ofNat]
  omega

theorem exec_seImm (x : RegIx) (nn : Byte) (s : State) :
    exec (.seImm x nn) s =
      .next (s.setPc (if (s.reg x).toNat = nn.toNat then s.pc + 4#16 else s.pc + 2#16)) := by
  simp [exec, execSeImm, State.advance_skipIf_eq_setPc, BitVec.toNat_inj]

theorem exec_sneImm (x : RegIx) (nn : Byte) (s : State) :
    exec (.sneImm x nn) s =
      .next (s.setPc (if (s.reg x).toNat = nn.toNat then s.pc + 2#16 else s.pc + 4#16)) := by
  simp [exec, execSneImm, State.advance_skipIf_eq_setPc, BitVec.toNat_inj]

/-- SE on registers compares with V[y] as SE compares with its immediate (R106). -/
theorem exec_seReg (x y : RegIx) (s : State) : exec (.seReg x y) s = exec (.seImm x (s.reg y)) s := rfl

/-- SNE on registers compares with V[y] as SNE compares with its immediate (R107). -/
theorem exec_sneReg (x y : RegIx) (s : State) : exec (.sneReg x y) s = exec (.sneImm x (s.reg y)) s := rfl

/-! ### Zeroed memory -/

/-- Memory that nothing has written is zero behind the font (R35). -/
theorem State.byte_of_unwritten {s : State} (hmem : s.mem = []) {a : Nat} (ha : 80 ≤ a) : s.byte a = 0#8 := by
  rw [State.byte, hmem, Memory.get, resetByte, if_neg (by omega)]

/-- Two zero bytes at the pc are run as a NOP. -/
theorem tick_of_zero_bytes {s : State} (hs : s.fault = none) (hpc : s.pc.toNat ≤ 4094)
    (hhi : s.byte s.pc.toNat = 0#8) (hlo : s.byte (s.pc.toNat + 1) = 0#8) (rnd : Byte) :
    tick rnd s = .next ((s.withRnd rnd).setPc (s.pc + 2#16)) := by
  have hfetch : s.fetch = some (wordOfBytes 0#8 0#8) := by rw [State.fetch_eq, if_pos hpc, hhi, hlo]
  have hdecode : decodeWord (wordOfBytes 0#8 0#8) = some .nop := wordIs_nop
  rw [tick_running hs, runTick_of_decodes ((s.fetch_withRnd rnd).trans hfetch) hdecode, exec_nop, State.pc_withRnd]

/-- A TICK above 4094 faults on its fetch (R91). -/
theorem tick_of_pc_gt {s : State} (hs : s.fault = none) (hpc : 4094 < s.pc.toNat) (rnd : Byte) :
    tick rnd s = .next ((s.withRnd rnd).raise .memoryFault) := by
  have hfetch : (s.withRnd rnd).fetch = none := (State.fetch_eq_none_iff _).mpr hpc
  rw [tick_running hs, runTick_of_fetch_none hfetch]

/-! ### The obligations -/

/-- Settles O12: NOP sets only the pc, family 0 holds no other no-op, and a TICK runs zero bytes as NOP up to 4094. -/
theorem nopOnlyAdvances : Obligations.NopOnlyAdvances := by
  refine ⟨wordIs_nop, fun s => ⟨_, exec_nop s, rfl, unchangedBut_setPc s _⟩, fun w => decodeWord_0NNN_eq_none,
    fun _ _ hmem => State.byte_of_unwritten hmem, fun s rnd hs hpc hhi hlo => ?_, fun s rnd hs hpc => ?_⟩
  · have hrnd : UnchangedBut [.pc, .host] s (s.withRnd rnd) := (unchangedBut_withRnd s rnd).mono (by simp)
    have hset := (unchangedBut_setPc (s.withRnd rnd) (s.pc + 2#16)).mono (m := [.pc, .host]) (by simp)
    exact ⟨_, tick_of_zero_bytes hs hpc hhi hlo rnd, rfl, hrnd.trans hset⟩
  · exact ⟨_, tick_of_pc_gt hs hpc rnd, State.fault_raise _ _⟩

/-- Settles O14: JP sets only the pc, to its address; only the next fetch can find no word there. -/
theorem jpGoesToTheAddress : Obligations.JpGoesToTheAddress :=
  ⟨fun _ => wordIs_jp, fun nnn s =>
    ⟨_, exec_jp nnn s, rfl, unchangedBut_setPc s nnn, (State.fetch_eq_none_iff (s.setPc nnn)).mpr⟩⟩

/-- Settles O16: both skips set only the pc, 4 or 2 further as the comparison says. -/
theorem skipsOnAnImmediate : Obligations.SkipsOnAnImmediate :=
  ⟨fun x nn => ⟨wordIs_seImm x nn, wordIs_sneImm x nn⟩,
    fun x nn s => ⟨_, exec_seImm x nn s, unchangedBut_setPc s _, rfl⟩,
    fun x nn s => ⟨_, exec_sneImm x nn s, unchangedBut_setPc s _, rfl⟩⟩

/-- Settles O17: the last digit of the word separates the skips from the illegal words, and each skip runs as the one on
an immediate with V[y] in its place. -/
theorem skipsOnTwoRegisters : Obligations.SkipsOnTwoRegisters := by
  refine ⟨fun x y => ⟨decodeWord_5XYn x y (n := 0) (by decide), decodeWord_9XYn x y (n := 0) (by decide)⟩,
    fun x y n hn hlt => ?_,
    fun x y s => ⟨_, (exec_seReg x y s).trans (exec_seImm x _ s), unchangedBut_setPc s _, rfl⟩,
    fun x y s => ⟨_, (exec_sneReg x y s).trans (exec_sneImm x _ s), unchangedBut_setPc s _, rfl⟩⟩
  have hne : n ≠ 0 := by omega
  rw [decodeWord_5XYn x y hlt, decodeWord_9XYn x y hlt, if_neg hne, if_neg hne]
  exact ⟨rfl, rfl⟩

/-- Settles O18: JP_V0 sets only the pc, to a sum that fits in 16 bits; only the next fetch can find no word there. -/
theorem jpV0AddsRegisterZero : Obligations.JpV0AddsRegisterZero := by
  refine ⟨fun _ => wordIs_jpV0, fun a s ha => ⟨_, exec_jpV0 _ s, ?_⟩⟩
  have hpc := jpV0_target_toNat (s.reg 0) ha
  have hv := (s.reg 0).isLt
  rw [State.fetch_eq_none_iff, State.pc_setPc, hpc]
  exact ⟨rfl, by omega, unchangedBut_setPc s _, fun hsum => by omega⟩

end Sys2Proof.Machine
end

section
/-! PROOFS. Register load, arithmetic, logic and random (42_arithmetic_logic.md): the words, the value and the flag that each
instruction writes, and that it writes nothing else. -/

namespace Sys2Proof.Machine

/-! ### The words -/

theorem wordIs_ldImm (x : RegIx) (nn : Byte) : WordIs (0x6000 + 256 * x.val + nn.toNat) (.ldImm x nn) := by
  obtain ⟨hfam, hx, hnn⟩ := fields_of_immediate (fam := 0x6) (by decide) x nn
  simp [WordIs, decodeWord, hfam, hx, hnn]

theorem wordIs_addImm (x : RegIx) (nn : Byte) : WordIs (0x7000 + 256 * x.val + nn.toNat) (.addImm x nn) := by
  obtain ⟨hfam, hx, hnn⟩ := fields_of_immediate (fam := 0x7) (by decide) x nn
  simp [WordIs, decodeWord, hfam, hx, hnn]

theorem wordIs_rnd (x : RegIx) (nn : Byte) : WordIs (0xC000 + 256 * x.val + nn.toNat) (.rnd x nn) := by
  obtain ⟨hfam, hx, hnn⟩ := fields_of_immediate (fam := 0xC) (by decide) x nn
  simp [WordIs, decodeWord, hfam, hx, hnn]

/-- 8XYn is the instruction on V[x] and V[y] that family 8 selects for the digit `n` (R76). -/
theorem wordIs_8XYn {i : RegIx → RegIx → Instr} {n : Nat} (hn : n < 16)
    (hsel : ∀ op, fieldN op = n → decodeFam8 op = some (i (fieldX op) (fieldY op))) (x y : RegIx) :
    WordIs (0x8000 + n + 256 * x.val + 16 * y.val) (i x y) := by
  obtain ⟨hfam, hx, hy, hlast⟩ := fields_of_digits (fam := 0x8) (by decide) x y hn
  have hword : 0x8000 + n + 256 * x.val + 16 * y.val = 4096 * 0x8 + 256 * x.val + 16 * y.val + n := by omega
  simp only [WordIs, hword, decodeWord, hfam, hsel _ hlast, hx, hy]

theorem wordIs_ldReg : ∀ x y : RegIx, WordIs (0x8000 + 256 * x.val + 16 * y.val) (.ldReg x y) :=
  wordIs_8XYn (n := 0x0) (by decide) fun op hop => by simp only [decodeFam8, hop]

theorem wordIs_or : ∀ x y : RegIx, WordIs (0x8001 + 256 * x.val + 16 * y.val) (.or x y) :=
  wordIs_8XYn (n := 0x1) (by decide) fun op hop => by simp only [decodeFam8, hop]

theorem wordIs_and : ∀ x y : RegIx, WordIs (0x8002 + 256 * x.val + 16 * y.val) (.and x y) :=
  wordIs_8XYn (n := 0x2) (by decide) fun op hop => by simp only [decodeFam8, hop]

theorem wordIs_xor : ∀ x y : RegIx, WordIs (0x8003 + 256 * x.val + 16 * y.val) (.xor x y) :=
  wordIs_8XYn (n := 0x3) (by decide) fun op hop => by simp only [decodeFam8, hop]

theorem wordIs_addReg : ∀ x y : RegIx, WordIs (0x8004 + 256 * x.val + 16 * y.val) (.addReg x y) :=
  wordIs_8XYn (n := 0x4) (by decide) fun op hop => by simp only [decodeFam8, hop]

theorem wordIs_sub : ∀ x y : RegIx, WordIs (0x8005 + 256 * x.val + 16 * y.val) (.sub x y) :=
  wordIs_8XYn (n := 0x5) (by decide) fun op hop => by simp only [decodeFam8, hop]

theorem wordIs_subn : ∀ x y : RegIx, WordIs (0x8007 + 256 * x.val + 16 * y.val) (.subn x y) :=
  wordIs_8XYn (n := 0x7) (by decide) fun op hop => by simp only [decodeFam8, hop]

/-! ### Writing one register, or a result and then VF -/

theorem unchangedBut_setReg (s : State) (x : RegIx) (v : Byte) : UnchangedBut [.V] s (s.setReg x v) := by
  intro p hp
  cases p with
  | V => exact absurd (List.mem_singleton.mpr rfl) hp
  | stack | keys | display | mem => exact fun _ => rfl
  | pc | I | sp | dt | st | fault | loaded | host => rfl

/-- The frame of an instruction with one destination register, which names no implicit flag (R22, R92). -/
theorem advance_setReg_frame (s : State) (x : RegIx) (v : Byte) :
    (s.advance.setReg x v).pc = s.pc + 2#16 ∧ OtherRegsSame [x] s (s.advance.setReg x v) ∧
      UnchangedBut [.pc, .V] s (s.advance.setReg x v) := by
  refine ⟨rfl, fun r hr => State.reg_setReg_ne _ x r v (List.ne_of_not_mem_cons hr), ?_⟩
  have hadvance : UnchangedBut [.pc, .V] s s.advance := (unchangedBut_setPc s _).mono (by simp)
  exact hadvance.trans ((unchangedBut_setReg _ x v).mono (by simp))

/-- The frame of an instruction that writes its result to V[x] and then a flag to VF (R22, R126). -/
theorem advance_setReg_flag_frame (s : State) (x : RegIx) (v f : Byte) :
    ((s.advance.setReg x v).setReg VF f).pc = s.pc + 2#16 ∧
      OtherRegsSame [x, VF] s ((s.advance.setReg x v).setReg VF f) ∧
      UnchangedBut [.pc, .V] s ((s.advance.setReg x v).setReg VF f) := by
  obtain ⟨hpc, hregs, hparts⟩ := advance_setReg_frame s x v
  refine ⟨hpc, fun r hr => ?_, hparts.trans ((unchangedBut_setReg _ VF f).mono (by simp))⟩
  simp only [List.mem_cons, List.not_mem_nil, or_false, not_or] at hr
  obtain ⟨hx, hVF⟩ := hr
  exact (State.reg_setReg_ne _ VF r f hVF).trans (hregs r (by simpa using hx))

/-- The result stays where the flag does not overwrite it. -/
theorem State.reg_setReg_flag (s : State) {x : RegIx} (hx : x ≠ VF) (v f : Byte) :
    ((s.setReg x v).setReg VF f).reg x = v := by
  rw [State.reg_setReg_ne _ VF x f hx, State.reg_setReg_same]

/-! ### The values as numbers -/

/-- R127: the carry out of bit 7. -/
theorem carryFlag_toNat (a b : Byte) : (carryFlag a b).toNat = if a.toNat + b.toNat > 255 then 1 else 0 :=
  apply_ite BitVec.toNat _ _ _

/-- R128, R130: 0 on borrow. -/
theorem notBorrowFlag_toNat (a b : Byte) : (notBorrowFlag a b).toNat = if a.toNat < b.toNat then 0 else 1 :=
  apply_ite BitVec.toNat _ _ _

/-- A difference of bytes wraps modulo 256 (R10). -/
theorem byte_sub_toNat_emod (a b : Byte) : ((a - b).toNat : Int) = ((a.toNat : Int) - b.toNat) % 256 := by
  have ha := a.isLt
  have hb := b.isLt
  rw [BitVec.toNat_sub]
  omega

/-- What SUB and SUBN share: the difference of any two bytes in V[x], then its not-borrow in VF, and nothing else (R128,
R130). -/
theorem difference_and_notBorrow (s : State) (x : RegIx) (a b : Byte) :
    let t := (s.advance.setReg x (a - b)).setReg VF (notBorrowFlag a b)
    (x ≠ VF → ((t.reg x).toNat : Int) = ((a.toNat : Int) - b.toNat) % 256) ∧
      (t.reg VF).toNat = (if a.toNat < b.toNat then 0 else 1) ∧
      t.pc = s.pc + 2#16 ∧ OtherRegsSame [x, VF] s t ∧ UnchangedBut [.pc, .V] s t := by
  refine ⟨fun hx => ?_, ?_, advance_setReg_flag_frame s x _ _⟩
  · rw [State.reg_setReg_flag _ hx, byte_sub_toNat_emod]
  · rw [State.reg_setReg_same, notBorrowFlag_toNat]

/-! ### The instructions: the register and the flag that each writes -/

theorem exec_ldImm (x : RegIx) (nn : Byte) (s : State) : exec (.ldImm x nn) s = .next (s.advance.setReg x nn) := rfl

theorem exec_ldReg (x y : RegIx) (s : State) : exec (.ldReg x y) s = .next (s.advance.setReg x (s.reg y)) := rfl

theorem exec_addImm (x : RegIx) (nn : Byte) (s : State) :
    exec (.addImm x nn) s = .next (s.advance.setReg x (s.reg x + nn)) := rfl

theorem exec_or (x y : RegIx) (s : State) :
    exec (.or x y) s = .next (s.advance.setReg x (s.reg x ||| s.reg y)) := rfl

theorem exec_and (x y : RegIx) (s : State) :
    exec (.and x y) s = .next (s.advance.setReg x (s.reg x &&& s.reg y)) := rfl

theorem exec_xor (x y : RegIx) (s : State) :
    exec (.xor x y) s = .next (s.advance.setReg x (s.reg x ^^^ s.reg y)) := rfl

theorem exec_addReg (x y : RegIx) (s : State) :
    exec (.addReg x y) s =
      .next ((s.advance.setReg x (s.reg x + s.reg y)).setReg VF (carryFlag (s.reg x) (s.reg y))) := rfl

theorem exec_sub (x y : RegIx) (s : State) :
    exec (.sub x y) s =
      .next ((s.advance.setReg x (s.reg x - s.reg y)).setReg VF (notBorrowFlag (s.reg x) (s.reg y))) := rfl

theorem exec_subn (x y : RegIx) (s : State) :
    exec (.subn x y) s =
      .next ((s.advance.setReg x (s.reg y - s.reg x)).setReg VF (notBorrowFlag (s.reg y) (s.reg x))) := rfl

theorem exec_rnd_withRnd (x : RegIx) (nn r : Byte) (s : State) :
    exec (.rnd x nn) (s.withRnd r) = .next ((s.withRnd r).advance.setReg x (r &&& nn)) := rfl

/-! ### The obligations -/

/-- Settles O19: both loads write their value to V[x] and no other register. -/
theorem loadsOfARegister : Obligations.LoadsOfARegister :=
  ⟨wordIs_ldImm, wordIs_ldReg,
    fun x nn s => ⟨_, exec_ldImm x nn s, State.reg_setReg_same _ x nn, advance_setReg_frame s x nn⟩,
    fun x y s => ⟨_, exec_ldReg x y s, State.reg_setReg_same _ x _, advance_setReg_frame s x _⟩⟩

/-- Settles O20: the addition of bytes is the one modulo 256, and V[x] is all that is written. -/
theorem addImmediateWrapsWithoutFlag : Obligations.AddImmediateWrapsWithoutFlag := by
  refine ⟨wordIs_addImm, fun x nn s => ⟨_, exec_addImm x nn s, ?_, advance_setReg_frame s x _⟩⟩
  rw [State.reg_setReg_same, BitVec.toNat_add]

/-- Settles O21: each bit of V[x] is the operation on the two bits, and V[x] is all that is written. -/
theorem logicIsBitwiseWithoutFlag : Obligations.LogicIsBitwiseWithoutFlag := by
  refine ⟨fun x y => ⟨wordIs_or x y, wordIs_and x y, wordIs_xor x y⟩, fun x y s =>
    ⟨⟨_, exec_or x y s, fun k => ?_, advance_setReg_frame s x _⟩,
      ⟨_, exec_and x y s, fun k => ?_, advance_setReg_frame s x _⟩,
      ⟨_, exec_xor x y s, fun k => ?_, advance_setReg_frame s x _⟩⟩⟩
  · rw [State.reg_setReg_same, BitVec.getLsbD_or]
  · rw [State.reg_setReg_same, BitVec.getLsbD_and]
  · rw [State.reg_setReg_same, BitVec.getLsbD_xor]

/-- Settles O22: the carry is computed from the operands and written last, so it is what stays with x = 15. -/
theorem addRegisterSetsCarry : Obligations.AddRegisterSetsCarry := by
  refine ⟨wordIs_addReg, fun x y s =>
    ⟨_, exec_addReg x y s, fun hx => ?_, ?_, advance_setReg_flag_frame s x _ _⟩⟩
  · rw [State.reg_setReg_flag _ hx, BitVec.toNat_add]
  · rw [State.reg_setReg_same, carryFlag_toNat]

/-- Settles O23: not-borrow is computed from the operands and written last, so it is what stays with x = 15. -/
theorem subSetsNotBorrow : Obligations.SubSetsNotBorrow :=
  ⟨wordIs_sub, fun x y s => ⟨_, exec_sub x y s, difference_and_notBorrow s x _ _⟩⟩

/-- Settles O24: as SUB with the operands exchanged; the result still goes to V[x]. -/
theorem subnSetsNotBorrow : Obligations.SubnSetsNotBorrow :=
  ⟨wordIs_subn, fun x y s => ⟨_, exec_subn x y s, difference_and_notBorrow s x _ _⟩⟩

/-- Settles O26: V[x] is the byte of the TICK and the mask bit by bit, whichever byte the TICK carries. -/
theorem rndMasksTheFreeByte : Obligations.RndMasksTheFreeByte := by
  refine ⟨wordIs_rnd, fun x nn r s =>
    ⟨_, exec_rnd_withRnd x nn r s, fun k => ?_, advance_setReg_frame (s.withRnd r) x _⟩⟩
  rw [State.reg_setReg_same, BitVec.getLsbD_and]

end Sys2Proof.Machine
end

section
/-! PROOFS. The index register (43_index_and_memory.md): the words, the value that each instruction writes to I, and that it
writes nothing else. -/

namespace Sys2Proof.Machine

/-! ### The words -/

/-- FXnn is the instruction on V[x] that family F selects for the low byte `nn` (R76). -/
theorem wordIs_FXnn {i : RegIx → Instr} {nn : Byte}
    (hsel : ∀ op, fieldNN op = nn → decodeFamF op = some (i (fieldX op))) (x : RegIx) :
    WordIs (0xF000 + nn.toNat + 256 * x.val) (i x) := by
  obtain ⟨hfam, hx, hnn⟩ := fields_of_immediate (fam := 0xF) (by decide) x nn
  have hword : 0xF000 + nn.toNat + 256 * x.val = 4096 * 0xF + 256 * x.val + nn.toNat := by omega
  simp only [WordIs, hword, decodeWord, hfam, hsel _ hnn, hx]

theorem wordIs_ldI {a : Nat} (ha : a < 4096) : WordIs (0xA000 + a) (.ldI (BitVec.ofNat 16 a)) := by
  obtain ⟨hfam, hnnn⟩ := fields_of_address (fam := 0xA) (by decide) ha
  simp [WordIs, decodeWord, hfam, hnnn]

theorem wordIs_addI : ∀ x : RegIx, WordIs (0xF01E + 256 * x.val) (.addI x) :=
  wordIs_FXnn (nn := 0x1E#8) fun op hop => by simp [decodeFamF, hop]

theorem wordIs_ldF : ∀ x : RegIx, WordIs (0xF029 + 256 * x.val) (.ldF x) :=
  wordIs_FXnn (nn := 0x29#8) fun op hop => by simp [decodeFamF, hop]

/-! ### Writing I, and nothing else -/

theorem unchangedBut_setI (s : State) (v : Word) : UnchangedBut [.I] s (s.setI v) := by
  intro p hp
  cases p with
  | I => exact absurd (List.mem_singleton.mpr rfl) hp
  | V | stack | keys | display | mem => exact fun _ => rfl
  | pc | sp | dt | st | fault | loaded | host => rfl

/-- The frame of an instruction whose destination is I (R27, R92). -/
theorem advance_setI_frame (s : State) (v : Word) :
    (s.advance.setI v).pc = s.pc + 2#16 ∧ UnchangedBut [.pc, .I] s (s.advance.setI v) := by
  have hadvance : UnchangedBut [.pc, .I] s s.advance := (unchangedBut_setPc s _).mono (by simp)
  exact ⟨rfl, hadvance.trans ((unchangedBut_setI _ v).mono (by simp))⟩

/-! ### The values as numbers -/

/-- A byte added to a word wraps modulo 65536 (R141). -/
theorem word_add_byte_toNat (w : Word) (v : Byte) : (w + v.setWidth 16).toNat = (w.toNat + v.toNat) % 65536 := by
  rw [BitVec.toNat_add, BitVec.toNat_setWidth_of_le (by decide)]

/-- Five times a byte fits in a word, so R142 never wraps. -/
theorem glyphAddress_toNat (v : Byte) : (glyphAddress v).toNat = 5 * v.toNat := by
  have hv := v.isLt
  rw [glyphAddress, BitVec.toNat_ofNat]
  omega

/-! ### The instructions: the value that each writes to I -/

theorem exec_ldI (nnn : Word) (s : State) : exec (.ldI nnn) s = .next (s.advance.setI nnn) := rfl

theorem exec_addI (x : RegIx) (s : State) :
    exec (.addI x) s = .next (s.advance.setI (s.I + (s.reg x).setWidth 16)) := rfl

theorem exec_ldF (x : RegIx) (s : State) : exec (.ldF x) s = .next (s.advance.setI (glyphAddress (s.reg x))) := rfl

/-! ### The obligations -/

/-- Settles O27: each of the three sets only the pc and I; the sum wraps at 16 bits, the product cannot. -/
theorem indexRegisterLoads : Obligations.IndexRegisterLoads :=
  ⟨fun _ => wordIs_ldI, fun x => ⟨wordIs_addI x, wordIs_ldF x⟩,
    fun nnn s => ⟨_, exec_ldI nnn s, State.I_setI _ nnn, advance_setI_frame s nnn⟩,
    fun x s => ⟨_, exec_addI x s, word_add_byte_toNat _ _, advance_setI_frame s _⟩,
    fun x s => ⟨_, exec_ldF x s, glyphAddress_toNat _, advance_setI_frame s _⟩⟩

end Sys2Proof.Machine
end

section
/-! PROOFS. The display (44_display.md): the word of CLS, the screen that it leaves, and that it writes nothing else. -/

namespace Sys2Proof.Machine

/-! ### The words -/

theorem wordIs_cls : WordIs 0x00E0 .cls := by
  unfold WordIs
  decide

/-! ### Replacing the screen, and nothing else -/

theorem unchangedBut_display (s : State) (d : Display) : UnchangedBut [.display] s { s with display := d } := by
  intro p hp
  cases p with
  | display => exact absurd (List.mem_singleton.mpr rfl) hp
  | V | stack | keys | mem => exact fun _ => rfl
  | pc | I | sp | dt | st | fault | loaded | host => rfl

/-- The frame of an instruction that writes only the screen (R37, R92). -/
theorem advance_display_frame (s : State) (d : Display) :
    ({ s.advance with display := d } : State).pc = s.pc + 2#16 ∧
      UnchangedBut [.pc, .display] s { s.advance with display := d } := by
  have hadvance : UnchangedBut [.pc, .display] s s.advance := (unchangedBut_setPc s _).mono (by simp)
  exact ⟨rfl, hadvance.trans ((unchangedBut_display _ d).mono (by simp))⟩

/-! ### The instructions: the screen that each leaves -/

theorem exec_cls (s : State) : exec .cls s = .next { s.advance with display := Vector.replicate 32 0#64 } := rfl

/-! ### The obligations -/

/-- Settles O33: the screen that CLS leaves is blank, and beside it only the pc is written. -/
theorem clsClearsEveryPixel : Obligations.ClsClearsEveryPixel :=
  ⟨wordIs_cls, fun s => ⟨_, exec_cls s, fun i _ => displayBit_blank i, advance_display_frame s _⟩⟩

end Sys2Proof.Machine
end

section
/-! PROOFS. Keys (45_keys_and_timer_access.md): the word of WAITKEY, the key that it takes, and that it writes nothing without
one. -/

namespace Sys2Proof.Machine

/-! ### The words -/

theorem wordIs_waitkey : ∀ x : RegIx, WordIs (0xF00A + 256 * x.val) (.waitkey x) :=
  wordIs_FXnn (nn := 0x0A#8) fun op hop => by simp [decodeFamF, hop]

/-! ### The values as numbers -/

/-- A key index fits in a byte. -/
theorem keyIndex_toNat (k : Fin 16) : (BitVec.ofNat 8 k.val).toNat = k.val := by
  rw [BitVec.toNat_ofNat, Nat.mod_eq_of_lt (by omega)]

/-! ### The instructions: what each does with and without a key -/

theorem exec_waitkey_of_lowestKey_eq_some {s : State} {k : Fin 16} (hk : s.lowestKey = some k) (x : RegIx) :
    exec (.waitkey x) s = .next (s.advance.setReg x (BitVec.ofNat 8 k.val)) := by
  simp only [exec, execWaitkey, hk]

/-- The rewind of R162 takes back the fetch-time advance, and nothing else was done. -/
theorem exec_waitkey_of_lowestKey_eq_none {s : State} (hnone : s.lowestKey = none) (x : RegIx) :
    exec (.waitkey x) s = .next s := by
  simp only [exec, execWaitkey, hnone, State.rewind_advance]

/-! ### The obligations -/

/-- Settles O37: the scan finds the least pressed key, whose index is all that is written beside the pc; where it finds
none, the rewind restores the state. -/
theorem waitkeyTakesTheLowestKey : Obligations.WaitkeyTakesTheLowestKey := by
  refine ⟨wordIs_waitkey, fun x s k hpressed hleast => ?_, fun x s hnone => ?_⟩
  · have hk : s.lowestKey = some k := (State.lowestKey_eq_some s k).mpr ⟨hpressed, hleast⟩
    refine ⟨_, exec_waitkey_of_lowestKey_eq_some hk x, ?_, advance_setReg_frame s x _⟩
    rw [State.reg_setReg_same, keyIndex_toNat]
  · exact exec_waitkey_of_lowestKey_eq_none ((State.lowestKey_eq_none s).mpr hnone) x

end Sys2Proof.Machine
end

section
/-! PROOFS. The faults of execute (60_exceptions.md, R203, R206): where each shared operation raises, and that an instruction
faults exactly where its operation does. -/

namespace Sys2Proof.Machine

/-! ### Where the shared operations raise -/

/-- Pop raises on the empty stack only (R15). -/
theorem State.pop_eq_none_iff (s : State) : s.pop = none ↔ s.sp.val = 0 := by
  refine ⟨fun hnone => ?_, State.pop_of_empty s⟩
  by_contra hsp
  simp [State.pop_of_pos s (by omega)] at hnone

/-- Push raises on the full stack only (R15). -/
theorem State.push_eq_none_iff (s : State) (v : Word) : s.push v = none ↔ s.sp.val = 16 := by
  refine ⟨fun hnone => ?_, State.push_of_full s v⟩
  by_contra hsp
  simp [State.push_of_lt s v (by omega)] at hnone

/-- A key index is out of range above 15 (R16). -/
theorem State.keyRead_eq_none_iff (s : State) (k : Nat) : s.keyRead k = none ↔ 15 < k := by
  refine ⟨fun hnone => ?_, fun hk => State.keyRead_of_ge s k hk⟩
  by_contra hk
  simp [State.keyRead_of_lt s k (by omega)] at hnone

/-- A block of reads raises where its last byte does not exist (R57, R64). -/
theorem Memory.readBlock_eq_none_iff (m : Memory) (a n : Nat) :
    Memory.readBlock m a n = none ↔ 1 ≤ n ∧ 4096 ≤ a + n - 1 := by
  simp only [Memory.readBlock_eq, ite_eq_right_iff, reduceCtorEq, imp_false]
  omega

/-- A block of writes raises where its last byte does not exist (R57, R64). -/
theorem Memory.writeBlock_eq_none_iff (m : Memory) (a : Nat) (bs : List Byte) :
    Memory.writeBlock m a bs = none ↔ 1 ≤ bs.length ∧ 4096 ≤ a + bs.length - 1 := by
  rw [← Option.not_isSome_iff_eq_none, Memory.writeBlock_isSome, ← List.length_eq_zero_iff]
  omega

/-- An instruction that ends in `commit` latches its one fault exactly where its operation raises, and nothing else
(R206). -/
theorem fault_of_commit_map {α : Type} {s : State} {f : Fault} {r : Option α} {g : α → State} {cause : Prop}
    [Decidable cause] (hraise : r = none ↔ cause) (hdone : ∀ a, r = some a → (g a).fault = none) :
    ∃ t, commit s f (r.map g) = .next t ∧ t.fault = if cause then some f else none := by
  cases r with
  | none => exact ⟨_, rfl, (if_pos (hraise.mp rfl)).symm⟩
  | some a =>
    have hno : ¬ cause := fun hc => by simpa using hraise.mpr hc
    exact ⟨_, rfl, (hdone a rfl).trans (if_neg hno).symm⟩

/-! ### The instructions that can fault: each by its one operation -/

/-- What R203 and R206 say of one instruction in one state: it completes or faults, with the FAULT latch of the tables. -/
def FaultsAsListed (i : Instr) (s : State) : Prop := ∃ t, exec i s = .next t ∧ t.fault = executeFault i s

section
variable {s : State} (hs : s.fault = none)
include hs

theorem faultsAsListed_ret : FaultsAsListed .ret s := by
  refine fault_of_commit_map (State.pop_eq_none_iff s.advance) fun p hp => ?_
  obtain ⟨k, -, -, hrest⟩ := State.pop_eq_some hp
  rw [State.fault_setPc, hrest]
  exact hs

theorem faultsAsListed_call (nnn : Word) : FaultsAsListed (.call nnn) s := by
  refine fault_of_commit_map (State.push_eq_none_iff s.advance _) fun u hu => ?_
  obtain ⟨_, hpushed⟩ := State.push_eq_some hu
  rw [State.fault_setPc, hpushed]
  exact hs

theorem faultsAsListed_drw (x y : RegIx) (n : Nat) : FaultsAsListed (.drw x y n) s :=
  fault_of_commit_map (Memory.readBlock_eq_none_iff s.mem (s.ea 0) n) fun _ _ => hs

theorem faultsAsListed_bcd (x : RegIx) : FaultsAsListed (.bcd x) s := by
  refine fault_of_commit_map ?_ fun _ _ => hs
  simp [Memory.writeBlock_eq_none_iff, bcdDigits, State.ea]

theorem faultsAsListed_store (x : RegIx) : FaultsAsListed (.store x) s := by
  refine fault_of_commit_map ?_ fun _ _ => hs
  simp [Memory.writeBlock_eq_none_iff, State.regsUpTo_length, State.ea, ← Nat.add_assoc]

theorem faultsAsListed_load (x : RegIx) : FaultsAsListed (.load x) s := by
  refine fault_of_commit_map ?_ fun _ _ => hs
  simp [Memory.readBlock_eq_none_iff, State.ea, ← Nat.add_assoc]

theorem faultsAsListed_skp (x : RegIx) : FaultsAsListed (.skp x) s :=
  fault_of_commit_map (State.keyRead_eq_none_iff s _) fun _ _ => (State.fault_skipIf _ _).trans hs

theorem faultsAsListed_sknp (x : RegIx) : FaultsAsListed (.sknp x) s :=
  fault_of_commit_map (State.keyRead_eq_none_iff s _) fun _ _ => (State.fault_skipIf _ _).trans hs

/-! ### Every instruction -/

/-- WAITKEY completes with a key and without one (R162). -/
theorem faultsAsListed_waitkey (x : RegIx) : FaultsAsListed (.waitkey x) s := by
  cases hk : s.lowestKey with
  | none => exact ⟨_, exec_waitkey_of_lowestKey_eq_none hk x, hs⟩
  | some k => exact ⟨_, exec_waitkey_of_lowestKey_eq_some hk x, hs⟩

/-- The fault of an instruction is the one the tables name, in the states they name (R203, R206). -/
theorem faultsAsListed (i : Instr) : FaultsAsListed i s := by
  cases i with
  | ret => exact faultsAsListed_ret hs
  | call nnn => exact faultsAsListed_call hs nnn
  | drw x y n => exact faultsAsListed_drw hs x y n
  | bcd x => exact faultsAsListed_bcd hs x
  | store x => exact faultsAsListed_store hs x
  | load x => exact faultsAsListed_load hs x
  | skp x => exact faultsAsListed_skp hs x
  | sknp x => exact faultsAsListed_sknp hs x
  | waitkey x => exact faultsAsListed_waitkey hs x
  | seImm | sneImm | seReg | sneReg => exact ⟨_, rfl, (State.fault_skipIf _ _).trans hs⟩
  | nop | cls | jp | jpV0 | ldImm | addImm | ldReg | or | and | xor | addReg | sub | shr | subn | shl | rnd
  | ldI | addI | ldF | ldVxDt | ldDtVx | ldStVx => exact ⟨_, rfl, hs⟩

end

/-! ### The obligation -/

/-- Settles O39: each instruction faults exactly where its one checked operation raises, and the fetch faults above 4094
before any instruction is known. -/
theorem faultsHaveExactlyTheListedCauses : Obligations.FaultsHaveExactlyTheListedCauses :=
  ⟨fun i _ hs => faultsAsListed hs i, fun _ rnd hs hpc => ⟨_, tick_of_pc_gt hs hpc rnd, State.fault_raise _ _⟩⟩

end Sys2Proof.Machine
end

section
/-! PROOFS. RESET (70_reset_and_hazards.md, R232): what it answers is fixed by the host's side alone, which it keeps. -/

namespace Sys2Proof.Machine

/-- RESET keeps the host's side, which is no part of the block (log entry 3). -/
@[simp] theorem State.host_restart (s : State) : s.restart.host = s.host := rfl

/-- Of the state before it, RESET reads the host's side only (R232). -/
theorem State.restart_congr {s s' : State} (hhost : s.host = s'.host) : s.restart = s'.restart := by
  rw [State.restart, State.restart, hhost]

/-- RESET always answers the restarted state, and no other (R230). -/
theorem perform_reset_eq_next_iff {s t : State} : perform .reset s = .next t ↔ t = s.restart := by
  simp only [perform, Host.Outcome.next.injEq, eq_comm]

/-- Settles O53: both halves compare two RESETs whose host's sides agree, the first because RESET keeps the host's side. -/
theorem resetIsIdempotent : Obligations.ResetIsIdempotent := by
  refine ⟨fun s t u hst htu => ?_, fun s s' t t' hhost hst hst' => ?_⟩
  · obtain rfl := perform_reset_eq_next_iff.mp hst
    obtain rfl := perform_reset_eq_next_iff.mp htu
    exact State.restart_congr s.host_restart
  · obtain rfl := perform_reset_eq_next_iff.mp hst
    obtain rfl := perform_reset_eq_next_iff.mp hst'
    exact State.restart_congr hhost

end Sys2Proof.Machine
end

section
/-! PROOFS. The encoding (30_encoding.md): the decoder and the encoder undo each other, and the decoder reads the table of
R75. -/

namespace Sys2Proof.Machine

/-! ### The fields of an encoded word -/

theorem wordA_eq_ofNat {fam : Nat} (hfam : fam < 16) {nnn : Word} (hfits : addressFits nnn = true) :
    wordA fam nnn = BitVec.ofNat 16 (4096 * fam + nnn.toNat) := by
  have hlt : nnn.toNat < 4096 := of_decide_eq_true hfits
  rw [← Nat.mod_eq_of_lt hlt, ← wordA_toNat fam nnn hfam, BitVec.ofNat_toNat, BitVec.setWidth_eq]

theorem wordXI_eq_ofNat {fam : Nat} (hfam : fam < 16) (x : RegIx) (nn : Byte) :
    wordXI fam x nn = BitVec.ofNat 16 (4096 * fam + 256 * x.val + nn.toNat) := by
  rw [← wordXI_toNat fam x nn hfam, BitVec.ofNat_toNat, BitVec.setWidth_eq]

theorem wordXYN_eq_ofNat {fam n : Nat} (hfam : fam < 16) (x y : RegIx) (hn : n < 16) :
    wordXYN fam x y n = BitVec.ofNat 16 (4096 * fam + 256 * x.val + 16 * y.val + n) := by
  have hword := wordXYN_toNat fam x y n hfam
  rw [Nat.mod_eq_of_lt hn] at hword
  rw [← hword, BitVec.ofNat_toNat, BitVec.setWidth_eq]

/-- A word of format A, written in fields, decodes to the instruction its family names. -/
theorem decodeWord_wordA {fam : Nat} (hfam : fam < 16) {nnn : Word} (hfits : addressFits nnn = true) {i : Instr}
    (hsel : ∀ op, fieldFam op = fam → fieldNNN op = nnn → decodeWord op = some i) :
    decodeWord (wordA fam nnn) = some i := by
  have hlt : nnn.toNat < 4096 := of_decide_eq_true hfits
  obtain ⟨hf, hnnn⟩ := fields_of_address hfam hlt
  rw [wordA_eq_ofNat hfam hfits]
  exact hsel _ hf (hnnn.trans (BitVec.ofNat_toNat 16 nnn |>.trans (BitVec.setWidth_eq nnn)))

/-- A word of format XI, written in fields, decodes to the instruction its family and low byte name. -/
theorem decodeWord_wordXI {fam : Nat} (hfam : fam < 16) {x : RegIx} {nn : Byte} {i : Instr}
    (hsel : ∀ op, fieldFam op = fam → fieldX op = x → fieldNN op = nn → decodeWord op = some i) :
    decodeWord (wordXI fam x nn) = some i := by
  obtain ⟨hf, hx, hnn⟩ := fields_of_immediate hfam x nn
  rw [wordXI_eq_ofNat hfam]
  exact hsel _ hf hx hnn

/-- A word of format XYN, written in fields, decodes to the instruction its family and last digit name. -/
theorem decodeWord_wordXYN {fam n : Nat} (hfam : fam < 16) {x y : RegIx} (hn : n < 16) {i : Instr}
    (hsel : ∀ op, fieldFam op = fam → fieldX op = x → fieldY op = y → fieldN op = n → decodeWord op = some i) :
    decodeWord (wordXYN fam x y n) = some i := by
  obtain ⟨hf, hx, hy, hlast⟩ := fields_of_digits hfam x y hn
  rw [wordXYN_eq_ofNat hfam x y hn]
  exact hsel _ hf hx hy hlast

/-- The word of a well-formed instruction decodes to it, format by format (R71). -/
theorem decodeWord_encode {i : Instr} (hi : i.wellFormed = true) : decodeWord (encode i) = some i := by
  cases i with
  | nop | cls | ret => decide
  | jp | call | ldI | jpV0 =>
    exact decodeWord_wordA (by decide) hi fun op hfam hnnn => by simp only [decodeWord, hfam, hnnn]
  | seImm | sneImm | ldImm | addImm | rnd =>
    exact decodeWord_wordXI (by decide) fun op hfam hx hnn => by simp only [decodeWord, hfam, hx, hnn]
  | skp | sknp => exact decodeWord_wordXI (by decide) fun op hfam hx hnn => by simp [decodeWord, hfam, decodeFamE, hx, hnn]
  | ldVxDt | waitkey | ldDtVx | ldStVx | addI | ldF | bcd | store | load =>
    exact decodeWord_wordXI (by decide) fun op hfam hx hnn => by simp [decodeWord, hfam, decodeFamF, hx, hnn]
  | seReg | sneReg =>
    exact decodeWord_wordXYN (by decide) (by decide) fun op hfam hx hy hn => by simp [decodeWord, hfam, hx, hy, hn]
  | ldReg | or | and | xor | addReg | sub | shr | subn | shl =>
    exact decodeWord_wordXYN (by decide) (by decide) fun op hfam hx hy hn => by
      simp only [decodeWord, hfam, decodeFam8, hx, hy, hn]
  | drw x y n =>
    have hrows : n < 16 := of_decide_eq_true hi
    exact decodeWord_wordXYN (by decide) hrows fun op hfam hx hy hn => by simp only [decodeWord, hfam, hx, hy, hn]

/-! ### What a word decodes to encodes to the word -/

/-- A word is its family and its address field. -/
theorem wordA_fields (op : Word) : wordA (fieldFam op) (fieldNNN op) = op := by
  apply BitVec.eq_of_toNat_eq
  rw [wordA_toNat _ _ (fieldFam_lt op), fieldFam_eq, fieldNNN_toNat]
  omega

theorem addressFits_fieldNNN (op : Word) : addressFits (fieldNNN op) = true := by
  rw [addressFits, fieldNNN_toNat, decide_eq_true_eq]
  omega

theorem rowsFit_fieldN (op : Word) : rowsFit (fieldN op) = true := by
  rw [rowsFit, fieldN_eq, decide_eq_true_eq]
  omega

/-- The instruction is written by the word `op`: it fits its fields and `op` is its encoding. -/
def Encodes (op : Word) (i : Instr) : Prop := i.wellFormed = true ∧ encode i = op

theorem encodes_of_decodeFam0 {op : Word} {i : Instr} (h : decodeFam0 op = some i) : Encodes op i := by
  unfold decodeFam0 at h
  split_ifs at h with hnop hcls hret
  · cases h; exact ⟨rfl, hnop.symm⟩
  · cases h; exact ⟨rfl, hcls.symm⟩
  · cases h; exact ⟨rfl, hret.symm⟩

theorem encodes_of_decodeFam8 {op : Word} {i : Instr} (hfam : fieldFam op = 0x8) (h : decodeFam8 op = some i) :
    Encodes op i := by
  have hword := wordXYN_fields op
  rw [hfam] at hword
  unfold decodeFam8 at h
  split at h
  case h_10 => cases h
  all_goals
    next hn =>
      rw [hn] at hword
      cases h
      exact ⟨rfl, hword⟩

theorem encodes_of_decodeFamE {op : Word} {i : Instr} (hfam : fieldFam op = 0xE) (h : decodeFamE op = some i) :
    Encodes op i := by
  have hword := wordXI_fields op
  rw [hfam] at hword
  unfold decodeFamE at h
  split_ifs at h with hskp hsknp
  · rw [hskp] at hword; cases h; exact ⟨rfl, hword⟩
  · rw [hsknp] at hword; cases h; exact ⟨rfl, hword⟩

theorem encodes_of_decodeFamF {op : Word} {i : Instr} (hfam : fieldFam op = 0xF) (h : decodeFamF op = some i) :
    Encodes op i := by
  have hword := wordXI_fields op
  rw [hfam] at hword
  unfold decodeFamF at h
  split_ifs at h
  all_goals
    next hnn =>
      rw [hnn] at hword
      cases h
      exact ⟨rfl, hword⟩

/-- Decoding drops no bit of the word, family by family (R76). The cases `h_1` to `h_16` are the families 0x0 to 0xF. -/
theorem encodes_of_decodeWord {op : Word} {i : Instr} (h : decodeWord op = some i) : Encodes op i := by
  have hA := wordA_fields op
  have hXI := wordXI_fields op
  have hXYN := wordXYN_fields op
  unfold decodeWord at h
  split at h
  case h_1 hfam => exact encodes_of_decodeFam0 h
  case h_9 hfam => exact encodes_of_decodeFam8 hfam h
  case h_15 hfam => exact encodes_of_decodeFamE hfam h
  case h_16 hfam => exact encodes_of_decodeFamF hfam h
  case h_2 hfam | h_3 hfam | h_11 hfam | h_12 hfam =>
    rw [hfam] at hA
    cases h
    exact ⟨addressFits_fieldNNN op, hA⟩
  case h_4 hfam | h_5 hfam | h_7 hfam | h_8 hfam | h_13 hfam =>
    rw [hfam] at hXI
    cases h
    exact ⟨rfl, hXI⟩
  case h_6 hfam | h_10 hfam =>
    obtain ⟨hn, hi⟩ := Option.ite_none_right_eq_some.mp h
    rw [hfam, hn] at hXYN
    cases hi
    exact ⟨rfl, hXYN⟩
  case h_14 hfam =>
    rw [hfam] at hXYN
    cases h
    exact ⟨rowsFit_fieldN op, hXYN⟩
  case h_17 => cases h

/-! ### The table of R75 -/

/-- Every instruction's word has the pattern of the row that bears its mnemonic. -/
theorem tableRow : ∀ i : Instr, Laws.TableRow.Statement i
  | .nop => Laws.TableRow.nop
  | .cls => Laws.TableRow.cls
  | .ret => Laws.TableRow.ret
  | .jp nnn => Laws.TableRow.jp nnn
  | .call nnn => Laws.TableRow.call nnn
  | .seImm x nn => Laws.TableRow.seImm x nn
  | .sneImm x nn => Laws.TableRow.sneImm x nn
  | .seReg x y => Laws.TableRow.seReg x y
  | .ldImm x nn => Laws.TableRow.ldImm x nn
  | .addImm x nn => Laws.TableRow.addImm x nn
  | .ldReg x y => Laws.TableRow.ldReg x y
  | .or x y => Laws.TableRow.or x y
  | .and x y => Laws.TableRow.and x y
  | .xor x y => Laws.TableRow.xor x y
  | .addReg x y => Laws.TableRow.addReg x y
  | .sub x y => Laws.TableRow.sub x y
  | .shr x y => Laws.TableRow.shr x y
  | .subn x y => Laws.TableRow.subn x y
  | .shl x y => Laws.TableRow.shl x y
  | .sneReg x y => Laws.TableRow.sneReg x y
  | .ldI nnn => Laws.TableRow.ldI nnn
  | .jpV0 nnn => Laws.TableRow.jpV0 nnn
  | .rnd x nn => Laws.TableRow.rnd x nn
  | .drw x y n => Laws.TableRow.drw x y n
  | .skp x => Laws.TableRow.skp x
  | .sknp x => Laws.TableRow.sknp x
  | .ldVxDt x => Laws.TableRow.ldVxDt x
  | .waitkey x => Laws.TableRow.waitkey x
  | .ldDtVx x => Laws.TableRow.ldDtVx x
  | .ldStVx x => Laws.TableRow.ldStVx x
  | .addI x => Laws.TableRow.addI x
  | .ldF x => Laws.TableRow.ldF x
  | .bcd x => Laws.TableRow.bcd x
  | .store x => Laws.TableRow.store x
  | .load x => Laws.TableRow.load x

theorem matchesWord_iff (p : OpcodeRow) (op : Word) : p.matchesWord op = true ↔ op &&& p.mask = p.value := by
  simp [OpcodeRow.matchesWord]

/-- A decoded word has the pattern of the row of its instruction. -/
theorem exists_row_of_decodeWord {op : Word} {i : Instr} (h : decodeWord op = some i) :
    ∃ row ∈ opcodeRows, row.mnemonic = i.mnemonic ∧ row.matchesWord op = true := by
  obtain ⟨-, henc⟩ := encodes_of_decodeWord h
  obtain ⟨row, hrow, hname, hmatch⟩ := tableRow i
  exact ⟨row, hrow, hname, henc ▸ hmatch⟩

/-- Each row names its instruction by another mnemonic. -/
theorem opcodeRows_mnemonic_nodup : (opcodeRows.map OpcodeRow.mnemonic).Nodup := by decide

/-- The fixed digits of two rows differ where both rows fix one. -/
theorem opcodeRows_apart :
    ∀ p ∈ opcodeRows, ∀ q ∈ opcodeRows, p.value &&& q.mask = q.value &&& p.mask → p = q := by
  decide

/-- A word has two rows' patterns only if the patterns agree on the digits that both fix. -/
theorem value_and_mask_comm_of_matches {op : Word} {p q : OpcodeRow} (hp : p.matchesWord op = true)
    (hq : q.matchesWord op = true) : p.value &&& q.mask = q.value &&& p.mask := by
  rw [matchesWord_iff] at hp hq
  rw [← hp, ← hq, BitVec.and_assoc, BitVec.and_assoc, BitVec.and_comm p.mask]

/-- No word matches two rows (R77). -/
theorem row_eq_of_matches {op : Word} {p q : OpcodeRow} (hp : p ∈ opcodeRows) (hq : q ∈ opcodeRows)
    (hpm : p.matchesWord op = true) (hqm : q.matchesWord op = true) : p = q :=
  opcodeRows_apart p hp q hq (value_and_mask_comm_of_matches hpm hqm)

/-- A word has an instruction exactly where it matches some row (R75, R76). -/
theorem decodeWord_isSome_iff (op : Word) :
    (decodeWord op).isSome = true ↔ ∃ p ∈ opcodeRows, p.matchesWord op = true := by
  have hnone := (decodeWord_eq_none_iff op).trans (forall_row_ne_iff op).symm
  rw [Option.isSome_iff_ne_none, ne_eq, hnone]
  simp [matchesWord_iff]

/-! ### The obligations -/

/-- Settles O1: the bytes are those of the encoded word, which decodes to the instruction format by format. -/
theorem decodeOfEncodeIsTheInstruction : Obligations.DecodeOfEncodeIsTheInstruction := by
  intro i rest hi
  rw [encodeBytes, decode_bytesOfWord, decodeWord_encode hi]

/-- Settles O2: in each family the fields of the word, put together again, are the word. -/
theorem encodeOfDecodeIsTheWord : Obligations.EncodeOfDecodeIsTheWord :=
  fun _ _ => encodes_of_decodeWord

/-- Settles O3: a word that matches a row decodes, and the row of what it decodes to can only be that row. -/
theorem decoderReadsTheOpcodeTable : Obligations.DecoderReadsTheOpcodeTable := by
  refine ⟨rfl, fun op row hrow => ?_⟩
  rw [← matchesWord_iff]
  constructor
  · intro hmatch
    obtain ⟨i, hi⟩ := Option.isSome_iff_exists.mp ((decodeWord_isSome_iff op).mpr ⟨row, hrow, hmatch⟩)
    obtain ⟨row', hrow', hname, hmatch'⟩ := exists_row_of_decodeWord hi
    obtain rfl := row_eq_of_matches hrow hrow' hmatch hmatch'
    exact ⟨i, hi, hname.symm⟩
  · rintro ⟨i, hi, hname⟩
    obtain ⟨row', hrow', hname', hmatch'⟩ := exists_row_of_decodeWord hi
    obtain rfl := List.inj_on_of_nodup_map opcodeRows_mnemonic_nodup hrow hrow' (hname.symm.trans hname'.symm)
    exact hmatch'

/-- Settles O4: any two rows differ in a digit that both fix. -/
theorem opcodeRowsAreDisjoint : Obligations.OpcodeRowsAreDisjoint :=
  ⟨fun _ _ _ => row_eq_of_matches, decodeWord_isSome_iff⟩

/-- Settles O6: the nine words, each by the lemma about its format where there is one. -/
theorem handEncodedWordsDecode : Obligations.HandEncodedWordsDecode := by
  refine ⟨wordIs_cls, wordIs_jp (a := 0x204) (by decide), wordIs_sneImm 10 0x10, wordIs_addReg 1 2, ?_⟩
  unfold WordIs
  decide

end Sys2Proof.Machine
end

section
/-! PROOFS. RET, CALL and WAITKEY (41_control_flow.md, 45_keys_and_timer_access.md): the instructions with more than one way
to end, and for each of them everything that it can do. -/

namespace Sys2Proof.Machine

/-! ### The depth of the stack (R30) -/

theorem State.sp_eq_zero_or_succ (s : State) : s.sp.val = 0 ∨ ∃ k : Fin 16, s.sp.val = k.val + 1 := by
  have hsp := s.sp.isLt
  by_cases hzero : s.sp.val = 0
  · exact .inl hzero
  · exact .inr ⟨⟨s.sp.val - 1, by omega⟩, by simp only; omega⟩

theorem State.sp_eq_full_or_lt (s : State) : s.sp.val = 16 ∨ ∃ k : Fin 16, s.sp.val = k.val := by
  have hsp := s.sp.isLt
  by_cases hfull : s.sp.val = 16
  · exact .inl hfull
  · exact .inr ⟨⟨s.sp.val, by omega⟩, rfl⟩

/-! ### RET and CALL -/

/-- With k + 1 addresses held RET takes the top one, slot k (R101). -/
theorem exec_ret_of_pos {s : State} {k : Fin 16} (hk : s.sp.val = k.val + 1) :
    exec .ret s = .next { s with pc := s.stack.get k, sp := k.castSucc } := by
  obtain ⟨V, pc, I, ⟨d, hd⟩, stack, keys, dt, st, display, mem, fault, loaded, host⟩ := s
  obtain rfl : d = k.val + 1 := hk
  rfl

theorem exec_ret_of_empty {s : State} (hs : s.sp.val = 0) : exec .ret s = .next (s.raise .stackFault) := by
  simp only [exec, execRet, State.pop_of_empty s.advance hs, Option.map_none, commit_none]

/-- With k < 16 addresses held CALL writes the next address to slot k (R103). -/
theorem exec_call_of_lt {s : State} {k : Fin 16} (hk : s.sp.val = k.val) (nnn : Word) :
    exec (.call nnn) s =
      .next { s with pc := nnn, sp := k.succ, stack := s.stack.set k.val (s.pc + 2#16) k.isLt } := by
  obtain ⟨V, pc, I, ⟨d, hd⟩, stack, keys, dt, st, display, mem, fault, loaded, host⟩ := s
  obtain ⟨k, hlt⟩ := k
  obtain rfl : d = k := hk
  have hpush := State.push_of_lt (State.advance ⟨V, pc, I, ⟨d, hd⟩, stack, keys, dt, st, display, mem, fault, loaded, host⟩)
    (pc + 2#16) hlt
  simp only [exec, execCall, State.pc_advance, hpush]
  rfl

theorem exec_call_of_full {s : State} (hs : s.sp.val = 16) (nnn : Word) :
    exec (.call nnn) s = .next (s.raise .stackFault) := by
  simp only [exec, execCall, State.push_of_full s.advance _ hs, Option.map_none, commit_none]

/-- Everything RET can do. -/
theorem exec_ret_cases {s t : State} (h : exec .ret s = .next t) :
    (s.sp.val = 0 ∧ t = s.raise .stackFault) ∨
      ∃ k : Fin 16, s.sp.val = k.val + 1 ∧ t = { s with pc := s.stack.get k, sp := k.castSucc } := by
  obtain hsp | ⟨k, hsp⟩ := s.sp_eq_zero_or_succ
  · rw [exec_ret_of_empty hsp] at h
    exact .inl ⟨hsp, (Host.Outcome.next.inj h).symm⟩
  · rw [exec_ret_of_pos hsp] at h
    exact .inr ⟨k, hsp, (Host.Outcome.next.inj h).symm⟩

/-- Everything CALL can do. -/
theorem exec_call_cases {nnn : Word} {s t : State} (h : exec (.call nnn) s = .next t) :
    (s.sp.val = 16 ∧ t = s.raise .stackFault) ∨
      ∃ k : Fin 16, s.sp.val = k.val ∧
        t = { s with pc := nnn, sp := k.succ, stack := s.stack.set k.val (s.pc + 2#16) k.isLt } := by
  obtain hsp | ⟨k, hsp⟩ := s.sp_eq_full_or_lt
  · rw [exec_call_of_full hsp] at h
    exact .inl ⟨hsp, (Host.Outcome.next.inj h).symm⟩
  · rw [exec_call_of_lt hsp] at h
    exact .inr ⟨k, hsp, (Host.Outcome.next.inj h).symm⟩

/-! ### WAITKEY -/

/-- Everything WAITKEY can do: nothing, or take the least pressed key. -/
theorem exec_waitkey_cases {x : RegIx} {s t : State} (h : exec (.waitkey x) s = .next t) :
    (s.lowestKey = none ∧ t = s) ∨
      ∃ k, s.lowestKey = some k ∧ t = s.advance.setReg x (BitVec.ofNat 8 k.val) := by
  cases hk : s.lowestKey with
  | none =>
    rw [exec_waitkey_of_lowestKey_eq_none hk] at h
    exact .inl ⟨rfl, (Host.Outcome.next.inj h).symm⟩
  | some k =>
    rw [exec_waitkey_of_lowestKey_eq_some hk] at h
    exact .inr ⟨k, rfl, (Host.Outcome.next.inj h).symm⟩

end Sys2Proof.Machine
end

section
/-! PROOFS. What the instructions leave unchanged (10_state.md, R20, R22, R24, R52, R206): the frame of each in pieces of
state, and in registers. -/

namespace Sys2Proof.Machine

/-! ### Frames read off the fields -/

/-- `s` with the listed pieces taken from `t`. -/
def State.patch (l : List Part) (s t : State) : State where
  V := if .V ∈ l then t.V else s.V
  pc := if .pc ∈ l then t.pc else s.pc
  I := if .I ∈ l then t.I else s.I
  sp := if .sp ∈ l then t.sp else s.sp
  stack := if .stack ∈ l then t.stack else s.stack
  keys := if .keys ∈ l then t.keys else s.keys
  dt := if .dt ∈ l then t.dt else s.dt
  st := if .st ∈ l then t.st else s.st
  display := if .display ∈ l then t.display else s.display
  mem := if .mem ∈ l then t.mem else s.mem
  fault := if .fault ∈ l then t.fault else s.fault
  loaded := if .loaded ∈ l then t.loaded else s.loaded
  host := if .host ∈ l then t.host else s.host

/-- A state whose fields outside the list are those of `s` is inside the frame of the list. For a list that is written out
the hypothesis holds by evaluation. -/
theorem unchangedBut_of_eq_patch {l : List Part} {s t : State} (h : t = s.patch l t) : UnchangedBut l s t := by
  intro p hp
  rw [h]
  cases p <;> simp [Part.same, State.patch, State.reg, State.pixel, State.byte, hp]

theorem unchangedBut_raise (s : State) (f : Fault) : UnchangedBut [.fault] s (s.raise f) :=
  unchangedBut_of_eq_patch rfl

/-- The frame of an instruction that may raise: that of its result, with FAULT in it. -/
theorem unchangedBut_of_commit_map {α : Type} {l : List Part} {s t : State} {f : Fault} {r : Option α} {g : α → State}
    (h : commit s f (r.map g) = .next t) (hl : .fault ∈ l) (hdone : ∀ a, r = some a → UnchangedBut l s (g a)) :
    UnchangedBut l s t := by
  obtain ⟨a, ha, rfl⟩ | ⟨-, rfl⟩ := commit_map_cases h
  · exact hdone a ha
  · exact (unchangedBut_raise s f).mono (List.cons_subset.mpr ⟨hl, List.nil_subset l⟩)

theorem unchangedBut_advance_skipIf (s : State) (c : Bool) : UnchangedBut [.pc] s (s.advance.skipIf c) := by
  rw [State.advance_skipIf_eq_setPc]
  exact unchangedBut_setPc s _

/-- The pieces of state that an instruction changes are among those listed for it. -/
theorem exec_frame {i : Instr} {s t : State} (h : exec i s = .next t) : UnchangedBut (mayChange i) s t := by
  cases i with
  | nop | jp | jpV0 | cls | ldImm | addImm | ldReg | or | and | xor | addReg | sub | shr | subn | shl | rnd | ldVxDt
  | ldI | addI | ldF | ldDtVx | ldStVx =>
    cases h
    exact unchangedBut_of_eq_patch rfl
  | seImm | sneImm | seReg | sneReg =>
    cases h
    exact unchangedBut_advance_skipIf s _
  | waitkey =>
    obtain ⟨-, rfl⟩ | ⟨k, -, rfl⟩ := exec_waitkey_cases h
    · exact unchangedBut_of_eq_patch rfl
    · exact unchangedBut_of_eq_patch rfl
  | skp | sknp =>
    exact unchangedBut_of_commit_map h (by simp [mayChange]) fun _ _ =>
      (unchangedBut_advance_skipIf s _).mono (by simp [mayChange])
  | drw | bcd | store | load =>
    exact unchangedBut_of_commit_map h (by simp [mayChange]) fun _ _ => unchangedBut_of_eq_patch rfl
  | ret =>
    obtain ⟨-, rfl⟩ | ⟨k, -, rfl⟩ := exec_ret_cases h
    · exact unchangedBut_of_eq_patch rfl
    · exact unchangedBut_of_eq_patch rfl
  | call =>
    obtain ⟨-, rfl⟩ | ⟨k, -, rfl⟩ := exec_call_cases h
    · exact unchangedBut_of_eq_patch rfl
    · exact unchangedBut_of_eq_patch rfl

/-- An instruction without V among its pieces keeps every register. -/
theorem reg_of_exec_of_V_notMem {i : Instr} {s t : State} (h : exec i s = .next t) (hV : .V ∉ mayChange i) (r : RegIx) :
    t.reg r = s.reg r :=
  exec_frame h .V hV r

/-! ### Who changes sp, the slots and the timers (R24, R28, R30, R31, R32) -/

theorem eq_ret_or_call_of_sp_mem {i : Instr} (h : .sp ∈ mayChange i) : i = .ret ∨ ∃ nnn, i = .call nnn := by
  cases i with
  | ret => exact .inl rfl
  | call nnn => exact .inr ⟨nnn, rfl⟩
  | _ => simp [mayChange] at h

theorem eq_call_of_stack_mem {i : Instr} (h : .stack ∈ mayChange i) : ∃ nnn, i = .call nnn := by
  cases i with
  | call nnn => exact ⟨nnn, rfl⟩
  | _ => simp [mayChange] at h

theorem eq_ldDtVx_of_dt_mem {i : Instr} (h : .dt ∈ mayChange i) : ∃ x, i = .ldDtVx x := by
  cases i with
  | ldDtVx x => exact ⟨x, rfl⟩
  | _ => simp [mayChange] at h

theorem eq_ldStVx_of_st_mem {i : Instr} (h : .st ∈ mayChange i) : ∃ x, i = .ldStVx x := by
  cases i with
  | ldStVx x => exact ⟨x, rfl⟩
  | _ => simp [mayChange] at h

/-! ### The registers -/

theorem State.reg_advance_setReg_ne (s : State) {x r : RegIx} (v : Byte) (hr : r ≠ x) :
    (s.advance.setReg x v).reg r = s.reg r :=
  State.reg_setReg_ne _ x r v hr

/-- A register that is neither of the two written keeps its value. -/
theorem State.reg_advance_setReg_setReg_ne (s : State) {x y r : RegIx} (v w : Byte) (hx : r ≠ x) (hy : r ≠ y) :
    ((s.advance.setReg x v).setReg y w).reg r = s.reg r :=
  (State.reg_setReg_ne _ y r w hy).trans (State.reg_setReg_ne _ x r v hx)

/-- A block of reads that goes through returns the bytes in ascending order (R57). -/
theorem Memory.eq_of_readBlock {m : Memory} {a n : Nat} {bs : List Byte} (h : Memory.readBlock m a n = some bs) :
    bs = (List.range n).map (fun k => Memory.get m (a + k)) := by
  rw [Memory.readBlock_eq] at h
  exact (Option.some.inj (Option.ite_none_right_eq_some.mp h).2).symm

theorem Memory.length_of_readBlock {m : Memory} {a n : Nat} {bs : List Byte} (h : Memory.readBlock m a n = some bs) :
    bs.length = n := by
  rw [Memory.eq_of_readBlock h, List.length_map, List.length_range]

/-- LOAD keeps the registers above x (R145). -/
theorem reg_of_exec_load {x r : RegIx} {s t : State} (h : exec (.load x) s = .next t) (hr : x < r) :
    t.reg r = s.reg r := by
  obtain ⟨bs, hbs, rfl⟩ | ⟨-, rfl⟩ := commit_map_cases h
  · have hlen := Memory.length_of_readBlock hbs
    have hlt : x.val < r.val := hr
    exact (setRegsFrom_get s.V 0 bs r).trans (if_neg (by omega))
  · rfl

/-- A register that is no destination of the instruction keeps its value (R20, R22). -/
theorem reg_of_exec_of_not_mayWriteReg {i : Instr} {s t : State} {r : RegIx} (h : exec i s = .next t)
    (hr : ¬ mayWriteReg i r) : t.reg r = s.reg r := by
  cases i with
  | nop | cls | ret | jp | call | seImm | sneImm | seReg | sneReg | ldI | jpV0 | skp | sknp | ldDtVx | ldStVx | addI
  | ldF | bcd | store => exact reg_of_exec_of_V_notMem h (by simp [mayChange]) r
  | ldImm | addImm | ldReg | or | and | xor | rnd | ldVxDt =>
    cases h
    exact State.reg_advance_setReg_ne s _ hr
  | addReg | sub | subn =>
    cases h
    obtain ⟨hx, hVF⟩ := not_or.mp hr
    exact State.reg_advance_setReg_setReg_ne s _ _ hx hVF
  | shr | shl =>
    cases h
    obtain ⟨hx, hVF⟩ := not_or.mp hr
    exact State.reg_advance_setReg_setReg_ne s _ _ hVF hx
  | waitkey =>
    obtain ⟨-, rfl⟩ | ⟨k, -, rfl⟩ := exec_waitkey_cases h
    · rfl
    · exact State.reg_advance_setReg_ne s _ hr
  | drw =>
    obtain ⟨_, -, rfl⟩ | ⟨-, rfl⟩ := commit_map_cases h
    · exact State.reg_setReg_ne _ VF r _ hr
    · rfl
  | load x => exact reg_of_exec_load h (not_le.mp hr)

/-! ### The obligations -/

/-- Settles O44: each instruction writes the fields of its list, and one that faults writes FAULT only. -/
theorem instructionsReachOnlyTheirState : Obligations.InstructionsReachOnlyTheirState :=
  fun _ _ _ => exec_frame

/-- Settles O45: the instructions without V in their frame write no register, the others only their destinations. -/
theorem registersChangeOnlyWhereWritten : Obligations.RegistersChangeOnlyWhereWritten :=
  fun _ _ _ _ => reg_of_exec_of_not_mayWriteReg

end Sys2Proof.Machine
end

section
/-! PROOFS. Control flow (41_control_flow.md): RET and CALL on the stack, and where the pc stands after any instruction. -/

namespace Sys2Proof.Machine

/-! ### RET and CALL -/

theorem wordIs_ret : WordIs 0x00EE .ret := by
  unfold WordIs
  decide

theorem wordIs_call {a : Nat} (ha : a < 4096) : WordIs (0x2000 + a) (.call (BitVec.ofNat 16 a)) := by
  obtain ⟨hfam, hnnn⟩ := fields_of_address (fam := 0x2) (by decide) ha
  simp [WordIs, decodeWord, hfam, hnnn]

/-- Settles O13: RET writes the pc and sp only; the slot stays. -/
theorem retPopsTheReturnAddress : Obligations.RetPopsTheReturnAddress :=
  ⟨wordIs_ret, fun _ _ hk => ⟨_, exec_ret_of_pos hk, rfl, rfl, unchangedBut_of_eq_patch rfl⟩,
    fun _ => exec_ret_of_empty⟩

/-- Settles O15: CALL writes the pc, sp and the one slot that the old sp names. -/
theorem callPushesTheNextAddress : Obligations.CallPushesTheNextAddress := by
  refine ⟨fun _ => wordIs_call, fun nnn s k hk => ⟨_, exec_call_of_lt hk nnn, rfl, rfl, ?_, fun j hj => ?_,
    unchangedBut_of_eq_patch rfl⟩, fun nnn _ hs => exec_call_of_full hs nnn⟩
  · exact Vector.getElem_set_self k.isLt
  · exact Vector.getElem_set_ne k.isLt j.isLt (Fin.val_ne_of_ne hj.symm)

/-! ### The pc after an instruction -/

/-- An instruction outside the list of R109 advances the pc by 2 and keeps FAULT, or it raises. -/
theorem exec_advances_or_raises {i : Instr} {s t : State} (hi : controlsPc i = false) (h : exec i s = .next t) :
    (t.fault = s.fault ∧ t.pc = s.pc + 2#16) ∨ ∃ f, t = s.raise f := by
  cases i with
  | ret | jp | call | jpV0 | seImm | sneImm | seReg | sneReg | skp | sknp | waitkey => cases hi
  | nop | cls | ldImm | addImm | ldReg | or | and | xor | addReg | sub | shr | subn | shl | ldI | rnd | ldVxDt | ldDtVx
  | ldStVx | addI | ldF =>
    cases h
    exact .inl ⟨rfl, rfl⟩
  | drw | bcd | store | load =>
    obtain ⟨_, -, rfl⟩ | ⟨-, rfl⟩ := commit_map_cases h
    · exact .inl ⟨rfl, rfl⟩
    · exact .inr ⟨_, rfl⟩

/-- How far from `s` the pc of `t` can be after an instruction that sets no address: not at all, 2 or 4 (R92, R17). -/
def PcNear (s t : State) : Prop := t.pc = s.pc ∨ t.pc = s.pc + 2#16 ∨ t.pc = s.pc + 4#16

theorem pcNear_advance_skipIf (s : State) (c : Bool) : PcNear s (s.advance.skipIf c) := by
  rw [PcNear, State.pc_advance_skipIf]
  cases c
  · exact .inr (.inl rfl)
  · exact .inr (.inr rfl)

/-- Only RET, JP, CALL and JP_V0 send the pc further than 4. -/
theorem pcNear_of_exec {i : Instr} {s t : State} (h : exec i s = .next t)
    (hjump : ∀ nnn, i ≠ .jp nnn ∧ i ≠ .call nnn ∧ i ≠ .jpV0 nnn) (hret : i ≠ .ret) : PcNear s t := by
  by_cases hi : controlsPc i = false
  · obtain ⟨-, hpc⟩ | ⟨f, rfl⟩ := exec_advances_or_raises hi h
    · exact .inr (.inl hpc)
    · exact .inl rfl
  cases i with
  | ret => exact absurd rfl hret
  | jp nnn | call nnn | jpV0 nnn => simp at hjump
  | seImm | sneImm | seReg | sneReg =>
    cases h
    exact pcNear_advance_skipIf s _
  | skp | sknp =>
    obtain ⟨_, -, rfl⟩ | ⟨-, rfl⟩ := commit_map_cases h
    · exact pcNear_advance_skipIf s _
    · exact .inl rfl
  | waitkey =>
    obtain ⟨-, rfl⟩ | ⟨k, -, rfl⟩ := exec_waitkey_cases h
    · exact .inl rfl
    · exact .inr (.inl rfl)
  | nop | cls | ldImm | addImm | ldReg | or | and | xor | addReg | sub | shr | subn | shl | ldI | rnd | ldVxDt | ldDtVx
  | ldStVx | addI | ldF | drw | bcd | store | load => exact absurd rfl hi

/-- Where a fetch answers, the pc is at most 4094 (R91). -/
theorem pc_le_of_fetch {s : State} {op : Word} (hop : s.fetch = some op) : s.pc.toNat ≤ 4094 := by
  have hne : s.fetch ≠ none := by simp [hop]
  rw [ne_eq, State.fetch_eq_none_iff] at hne
  omega

/-- From a pc at most 4094 neither the advance nor a skip wraps. -/
theorem PcNear.toNat_le {s t : State} (h : PcNear s t) (hpc : s.pc.toNat ≤ 4094) :
    s.pc.toNat ≤ t.pc.toNat ∧ t.pc.toNat ≤ s.pc.toNat + 4 := by
  obtain h | h | h := h <;> rw [h] <;> bv_omega

/-! ### The obligations about the pc -/

/-- Settles O11: outside the list an instruction advances or raises, and a raise is all that sets FAULT. -/
theorem onlyListedInstructionsMoveThePc : Obligations.OnlyListedInstructionsMoveThePc := by
  intro i s t hs hi h
  obtain ⟨hfault, hpc⟩ | ⟨f, rfl⟩ := exec_advances_or_raises hi h
  · exact .inl ⟨hfault.trans hs, hpc⟩
  · exact .inr ⟨by simp, rfl⟩

/-- Settles O51: a fetch that answers is at 4094 or below, and from there 4 further is far from the wrap. -/
theorem pcArithmeticNeverWraps : Obligations.PcArithmeticNeverWraps := by
  intro s t op i hop _ h hjump hret
  have hpc := pc_le_of_fetch hop
  exact ⟨hpc, (pcNear_of_exec h hjump hret).toNat_le hpc⟩

end Sys2Proof.Machine
end

section
/-! PROOFS. The shifts (42_arithmetic_logic.md, R129, R131): the flag is written first, the shift acts on what it left. -/

namespace Sys2Proof.Machine

theorem wordIs_shr : ∀ x y : RegIx, WordIs (0x8006 + 256 * x.val + 16 * y.val) (.shr x y) :=
  wordIs_8XYn (n := 0x6) (by decide) fun op hop => by simp only [decodeFam8, hop]

theorem wordIs_shl : ∀ x y : RegIx, WordIs (0x800E + 256 * x.val + 16 * y.val) (.shl x y) :=
  wordIs_8XYn (n := 0xE) (by decide) fun op hop => by simp only [decodeFam8, hop]

/-! ### A flag to VF and then a shift of V[x] -/

/-- What SHR and SHL share: VF takes the flag, then V[x] takes the shift of what V[x] then holds (R126). -/
def State.flagThenShift (s : State) (x : RegIx) (flag : Byte) (shift : Byte → Byte) : State :=
  (s.advance.setReg VF flag).setReg x (shift ((s.advance.setReg VF flag).reg x))

theorem exec_shr (x y : RegIx) (s : State) :
    exec (.shr x y) s = .next (s.flagThenShift x (lowBitFlag (s.reg x)) (· >>> 1)) := rfl

theorem exec_shl (x y : RegIx) (s : State) :
    exec (.shl x y) s = .next (s.flagThenShift x (highBitFlag (s.reg x)) (· <<< 1)) := rfl

section
variable (s : State) (flag : Byte) (shift : Byte → Byte)

/-- Other than VF, V[x] is shifted as it was. -/
theorem State.reg_flagThenShift_same {x : RegIx} (hx : x ≠ VF) :
    (s.flagThenShift x flag shift).reg x = shift (s.reg x) := by
  rw [State.flagThenShift, State.reg_setReg_same, State.reg_setReg_ne _ VF x flag hx, State.reg_advance]

/-- VF keeps the flag where it is not shifted itself. -/
theorem State.reg_flagThenShift_VF {x : RegIx} (hx : x ≠ VF) : (s.flagThenShift x flag shift).reg VF = flag := by
  rw [State.flagThenShift, State.reg_setReg_ne _ x VF _ hx.symm, State.reg_setReg_same]

/-- With x = 15 it is the flag that is shifted (decision D8). -/
theorem State.reg_flagThenShift_of_VF : (s.flagThenShift VF flag shift).reg VF = shift flag := by
  rw [State.flagThenShift, State.reg_setReg_same, State.reg_setReg_same]

/-- The frame of a shift (R22, R92). -/
theorem State.flagThenShift_frame (x : RegIx) :
    (s.flagThenShift x flag shift).pc = s.pc + 2#16 ∧ OtherRegsSame [x, VF] s (s.flagThenShift x flag shift) ∧
      UnchangedBut [.pc, .V] s (s.flagThenShift x flag shift) := by
  refine ⟨rfl, fun r hr => ?_, unchangedBut_of_eq_patch rfl⟩
  simp only [List.mem_cons, List.not_mem_nil, or_false, not_or] at hr
  obtain ⟨hx, hVF⟩ := hr
  exact State.reg_advance_setReg_setReg_ne s _ _ hVF hx

end

/-! ### The values as numbers -/

theorem lowBitFlag_toNat (v : Byte) : (lowBitFlag v).toNat = v.toNat % 2 := by
  have hbit : v.getLsbD 0 = decide (v.toNat % 2 = 1) := by
    rw [BitVec.getLsbD, Nat.testBit_zero]
  rw [lowBitFlag, hbit, apply_ite BitVec.toNat]
  simp only [decide_eq_true_eq, BitVec.toNat_ofNat]
  split <;> omega

theorem highBitFlag_toNat (v : Byte) : (highBitFlag v).toNat = v.toNat / 128 := by
  have hbit : v.getLsbD 7 = decide (128 ≤ v.toNat) := BitVec.msb_eq_decide v
  have hlt := v.isLt
  rw [highBitFlag, hbit, apply_ite BitVec.toNat]
  simp only [decide_eq_true_eq, BitVec.toNat_ofNat]
  split <;> omega

/-- A right shift by one halves (R129). -/
theorem shiftRight_one_toNat (v : Byte) : (v >>> 1).toNat = v.toNat / 2 := by
  rw [BitVec.toNat_ushiftRight, Nat.shiftRight_eq_div_pow, Nat.pow_one]

/-- A left shift by one doubles modulo 256 (R131). -/
theorem shiftLeft_one_toNat (v : Byte) : (v <<< 1).toNat = 2 * v.toNat % 256 := by
  rw [BitVec.toNat_shiftLeft, Nat.shiftLeft_eq, Nat.pow_one, Nat.mul_comm]

/-- Settles O25: the cases x = 15 and x other than 15 are the ones of the shifted register being VF or not. -/
theorem shiftsSetTheBitShiftedOut : Obligations.ShiftsSetTheBitShiftedOut := by
  refine ⟨fun x y => ⟨wordIs_shr x y, wordIs_shl x y⟩,
    fun x y s => ⟨_, exec_shr x y s, fun hx => ⟨?_, ?_⟩, ?_, State.flagThenShift_frame s _ _ x⟩,
    fun x y s => ⟨_, exec_shl x y s, fun hx => ⟨?_, ?_⟩, ?_, State.flagThenShift_frame s _ _ x⟩⟩
  · rw [State.reg_flagThenShift_same s _ _ hx, shiftRight_one_toNat]
  · rw [State.reg_flagThenShift_VF s _ _ hx, lowBitFlag_toNat]
  · rintro rfl
    rw [State.reg_flagThenShift_of_VF, shiftRight_one_toNat, lowBitFlag_toNat]
    omega
  · rw [State.reg_flagThenShift_same s _ _ hx, shiftLeft_one_toNat]
  · rw [State.reg_flagThenShift_VF s _ _ hx, highBitFlag_toNat]
  · rintro rfl
    have hlt := (s.reg VF).isLt
    rw [State.reg_flagThenShift_of_VF, shiftLeft_one_toNat, highBitFlag_toNat]
    omega

end Sys2Proof.Machine
end

section
/-! PROOFS. Memory blocks (43_index_and_memory.md, 20_memory.md): what BCD and STORE write, what LOAD reads, and the switch
MEM_INCREMENTS_I. -/

namespace Sys2Proof.Machine

/-! ### The words -/

theorem wordIs_bcd : ∀ x : RegIx, WordIs (0xF033 + 256 * x.val) (.bcd x) :=
  wordIs_FXnn (nn := 0x33#8) fun op hop => by simp [decodeFamF, hop]

theorem wordIs_store : ∀ x : RegIx, WordIs (0xF055 + 256 * x.val) (.store x) :=
  wordIs_FXnn (nn := 0x55#8) fun op hop => by simp [decodeFamF, hop]

theorem wordIs_load : ∀ x : RegIx, WordIs (0xF065 + 256 * x.val) (.load x) :=
  wordIs_FXnn (nn := 0x65#8) fun op hop => by simp [decodeFamF, hop]

/-! ### Effective addresses and blocks -/

theorem State.ea_zero_add (s : State) (k : Nat) : s.ea 0 + k = s.ea k := by
  rw [State.ea, State.ea, Nat.add_zero]

/-- A block of `n + 1` writes at I goes through where its last address exists. -/
theorem exists_writeBlock {s : State} {bs : List Byte} {n : Nat} (hlen : bs.length = n + 1) (hfits : s.ea n < 4096) :
    ∃ m, Memory.writeBlock s.mem (s.ea 0) bs = some m := by
  rw [← Option.isSome_iff_exists, Memory.writeBlock_isSome]
  have := s.ea_zero_add n
  omega

theorem writeBlock_eq_none {s : State} {bs : List Byte} {n : Nat} (hlen : bs.length = n + 1) (hout : 4096 ≤ s.ea n) :
    Memory.writeBlock s.mem (s.ea 0) bs = none := by
  rw [Memory.writeBlock_eq_none_iff]
  have := s.ea_zero_add n
  omega

theorem readBlock_of_fits {s : State} {n : Nat} (hfits : s.ea n < 4096) :
    Memory.readBlock s.mem (s.ea 0) (n + 1) = some ((List.range (n + 1)).map (fun k => s.byte (s.ea k))) := by
  have := s.ea_zero_add n
  rw [Memory.readBlock_eq, if_pos (by omega)]
  simp only [State.ea_zero_add, State.byte]

theorem readBlock_eq_none {s : State} {n : Nat} (hout : 4096 ≤ s.ea n) :
    Memory.readBlock s.mem (s.ea 0) (n + 1) = none := by
  rw [Memory.readBlock_eq_none_iff]
  have := s.ea_zero_add n
  omega

/-- The byte at I + k after a block was written at I. -/
theorem get_writeBlock_ea {s : State} {bs : List Byte} {m : Memory} (hm : Memory.writeBlock s.mem (s.ea 0) bs = some m)
    {k : Nat} (hk : k < bs.length) : Memory.get m (s.ea k) = bs.getD k 0#8 := by
  have hat := s.ea_zero_add k
  rw [Memory.get_writeBlock hm, if_pos (by omega), ← hat, Nat.add_sub_cancel_left]

/-- Every byte outside the block is as before. -/
theorem get_writeBlock_outside {s : State} {bs : List Byte} {m : Memory} {n : Nat}
    (hm : Memory.writeBlock s.mem (s.ea 0) bs = some m) (hlen : bs.length = n + 1) {a : Nat}
    (ha : a < s.ea 0 ∨ s.ea n < a) : Memory.get m a = s.byte a := by
  have := s.ea_zero_add n
  rw [Memory.get_writeBlock hm, if_neg (by omega), State.byte]

/-! ### BCD -/

theorem bcdDigits_length (v : Byte) : (bcdDigits v).length = 2 + 1 := rfl

/-- The digits are those of the decimal number (R143). -/
theorem bcdDigits_spec (v : Byte) :
    100 * ((bcdDigits v).getD 0 0#8).toNat + 10 * ((bcdDigits v).getD 1 0#8).toNat + ((bcdDigits v).getD 2 0#8).toNat =
        v.toNat ∧
      ((bcdDigits v).getD 0 0#8).toNat ≤ 2 ∧ ((bcdDigits v).getD 1 0#8).toNat ≤ 9 ∧
      ((bcdDigits v).getD 2 0#8).toNat ≤ 9 := by
  have hv := v.isLt
  simp only [bcdDigits, List.getD_cons_zero, List.getD_cons_succ, BitVec.toNat_ofNat]
  omega

theorem exec_bcd_of_writeBlock {x : RegIx} {s : State} {m : Memory}
    (hm : Memory.writeBlock s.mem (s.ea 0) (bcdDigits (s.reg x)) = some m) :
    exec (.bcd x) s = .next { s.advance with mem := m } := by
  simp only [exec, execBcd, hm, Option.map_some, commit_some]

theorem exec_bcd_of_outside {x : RegIx} {s : State} (hout : 4096 ≤ s.ea 2) :
    exec (.bcd x) s = .next (s.raise .memoryFault) := by
  simp only [exec, execBcd, writeBlock_eq_none (bcdDigits_length _) hout, Option.map_none, commit_none]

/-- Settles O28: the three bytes written at I are the digits, and a block whose last byte is outside is not begun. -/
theorem bcdStoresThreeDigits : Obligations.BcdStoresThreeDigits := by
  refine ⟨wordIs_bcd, fun x s hfits => ?_, fun x s hout => exec_bcd_of_outside hout⟩
  obtain ⟨m, hm⟩ := exists_writeBlock (bcdDigits_length (s.reg x)) hfits
  have hdigit : ∀ k < 3, Memory.get m (s.ea k) = (bcdDigits (s.reg x)).getD k 0#8 := fun k hk => get_writeBlock_ea hm hk
  have hspec := bcdDigits_spec (s.reg x)
  rw [← hdigit 0 (by decide), ← hdigit 1 (by decide), ← hdigit 2 (by decide)] at hspec
  obtain ⟨hsum, hhundreds, htens, hones⟩ := hspec
  exact ⟨_, exec_bcd_of_writeBlock hm, hsum, hhundreds, htens, hones,
    fun a ha => get_writeBlock_outside hm (bcdDigits_length _) ha, rfl, unchangedBut_of_eq_patch rfl⟩

/-! ### STORE -/

theorem storeBlock_of_writeBlock {x : RegIx} {s : State} {m : Memory}
    (hm : Memory.writeBlock s.mem (s.ea 0) (s.regsUpTo x) = some m) (increments : Bool) :
    storeBlock increments x s = .next { s.advance with mem := m, I := s.indexAfter increments x } := by
  simp only [storeBlock, hm, Option.map_some, commit_some]

theorem storeBlock_of_outside {x : RegIx} {s : State} (hout : 4096 ≤ s.ea x.val) (increments : Bool) :
    storeBlock increments x s = .next (s.raise .memoryFault) := by
  simp only [storeBlock, writeBlock_eq_none (s.regsUpTo_length x) hout, Option.map_none, commit_none]

/-- STORE is the block of the switch at false (decision D12). -/
theorem exec_store (x : RegIx) (s : State) : exec (.store x) s = storeBlock false x s := rfl

/-- V[k] stands at I + k after the block of STORE (R144). -/
theorem get_writeBlock_regsUpTo {x k : RegIx} {s : State} {m : Memory}
    (hm : Memory.writeBlock s.mem (s.ea 0) (s.regsUpTo x) = some m) (hk : k ≤ x) :
    Memory.get m (s.ea k.val) = s.reg k := by
  have hlt : k.val < x.val + 1 := Nat.lt_succ_of_le hk
  rw [get_writeBlock_ea hm (by rwa [State.regsUpTo_length]), State.regsUpTo_getD s x k.val hlt]

/-- Settles O29: the block that STORE writes is V[0] to V[x], and one whose last byte is outside is not begun. -/
theorem storeWritesRegistersUpToX : Obligations.StoreWritesRegistersUpToX := by
  refine ⟨wordIs_store, fun x s hfits => ?_, fun x s hout => storeBlock_of_outside hout _⟩
  obtain ⟨m, hm⟩ := exists_writeBlock (s.regsUpTo_length x) hfits
  exact ⟨_, storeBlock_of_writeBlock hm false, fun k hk => get_writeBlock_regsUpTo hm hk,
    fun a ha => get_writeBlock_outside hm (s.regsUpTo_length x) ha, rfl, unchangedBut_of_eq_patch rfl⟩

/-! ### LOAD -/

theorem loadBlock_of_fits {x : RegIx} {s : State} (hfits : s.ea x.val < 4096) (increments : Bool) :
    loadBlock increments x s =
      .next { s.advance with
        V := setRegsFrom s.V 0 ((List.range (x.val + 1)).map (fun k => s.byte (s.ea k)))
        I := s.indexAfter increments x } := by
  simp only [loadBlock, readBlock_of_fits hfits, Option.map_some, commit_some]

theorem loadBlock_of_outside {x : RegIx} {s : State} (hout : 4096 ≤ s.ea x.val) (increments : Bool) :
    loadBlock increments x s = .next (s.raise .memoryFault) := by
  simp only [loadBlock, readBlock_eq_none hout, Option.map_none, commit_none]

/-- LOAD is the block of the switch at false (decision D12). -/
theorem exec_load (x : RegIx) (s : State) : exec (.load x) s = loadBlock false x s := rfl

/-- Register `r` after the first n + 1 took the values `f 0` to `f n` (R145). -/
theorem setRegsFrom_range_get (V : Vector Byte 16) (n : Nat) (f : Nat → Byte) (r : RegIx) :
    (setRegsFrom V 0 ((List.range (n + 1)).map f)).get r = if r.val ≤ n then f r.val else V.get r := by
  rw [setRegsFrom_get, List.length_map, List.length_range]
  by_cases hr : r.val ≤ n
  · have hlt : r.val < n + 1 := Nat.lt_succ_of_le hr
    rw [if_pos (by omega), if_pos hr, Nat.sub_zero, List.getD_eq_getElem?_getD]
    simp [hlt]
  · rw [if_neg (by omega), if_neg hr]

/-- Settles O30: the block that LOAD reads goes to V[0] to V[x], and one whose last byte is outside to no register. -/
theorem loadReadsRegistersUpToX : Obligations.LoadReadsRegistersUpToX := by
  refine ⟨wordIs_load, fun x s hfits => ?_, fun x s hout => loadBlock_of_outside hout _⟩
  refine ⟨_, loadBlock_of_fits hfits false, fun k hk => ?_, fun k hk => ?_, rfl, unchangedBut_of_eq_patch rfl⟩
  · exact (setRegsFrom_range_get s.V x.val _ k).trans (if_pos hk)
  · exact (setRegsFrom_range_get s.V x.val _ k).trans (if_neg (not_le.mpr hk))

/-! ### The switch, and code that was stored -/

/-- Settles O31: the two settings of the switch run the same block and write I differently at its end only. -/
theorem incrementSwitchTouchesOnlyTheIndex : Obligations.IncrementSwitchTouchesOnlyTheIndex := by
  refine ⟨fun x s => ⟨rfl, rfl⟩, fun x s t hfits => ⟨fun h => ?_, fun h => ?_⟩, fun x s hout => ⟨?_, ?_⟩⟩
  · obtain ⟨m, hm⟩ := exists_writeBlock (s.regsUpTo_length x) hfits
    rw [exec_store, storeBlock_of_writeBlock hm] at h
    cases h
    exact ⟨rfl, storeBlock_of_writeBlock hm true⟩
  · rw [exec_load, loadBlock_of_fits hfits] at h
    cases h
    exact ⟨rfl, loadBlock_of_fits hfits true⟩
  · rw [exec_store, storeBlock_of_outside hout, storeBlock_of_outside hout]
  · rw [exec_load, loadBlock_of_outside hout, loadBlock_of_outside hout]

/-- Settles O32: the two bytes at the next instruction are V[0] and V[1], and a fetch reads memory as it stands. -/
theorem storedCodeIsFetchedNext : Obligations.StoredCodeIsFetchedNext := by
  intro x s t hx hI hfits h
  obtain ⟨m, hm⟩ := exists_writeBlock (s.regsUpTo_length x) hfits
  rw [exec_store, storeBlock_of_writeBlock hm] at h
  cases h
  have hlast : s.ea x.val = s.I.toNat + x.val := rfl
  have hpc : (s.pc + 2#16).toNat = s.ea 0 := by
    rw [State.ea, Nat.add_zero, ← hI]
    bv_omega
  have h0 : Memory.get m (s.ea 0) = s.reg 0 := get_writeBlock_regsUpTo (k := 0) hm (Fin.zero_le x)
  have h1 : Memory.get m (s.ea 0 + 1) = s.reg 1 := get_writeBlock_regsUpTo (k := 1) hm hx
  have hfetch := State.fetch_bigEndian (s := { s.advance with mem := m, I := s.indexAfter false x })
    (by rw [State.pc_advance, hpc, State.ea]; omega)
  simp only [State.byte, State.pc_advance, hpc, h0, h1] at hfetch
  exact hfetch

end Sys2Proof.Machine
end

section
/-! PROOFS. DRW (44_display.md, R151 to R153): which pixels a sprite flips, when they collide, and drawing it twice. -/

namespace Sys2Proof.Machine

theorem wordIs_drw {n : Nat} (hn : n < 16) (x y : RegIx) :
    WordIs (0xD000 + 256 * x.val + 16 * y.val + n) (.drw x y n) := by
  obtain ⟨hfam, hx, hy, hlast⟩ := fields_of_digits (fam := 0xD) (by decide) x y hn
  simp [WordIs, decodeWord, hfam, hx, hy, hlast]

/-! ### The sprite -/

/-- The `n` rows of the sprite at I (R152). -/
def State.spriteRows (s : State) (n : Nat) : List Byte := (List.range n).map (fun r => s.byte (s.I.toNat + r))

theorem State.spriteRows_length (s : State) (n : Nat) : (s.spriteRows n).length = n := by
  rw [State.spriteRows, List.length_map, List.length_range]

theorem State.spriteRows_getD (s : State) {n r : Nat} (hr : r < n) :
    (s.spriteRows n).getD r 0#8 = s.byte (s.I.toNat + r) := by
  simp [State.spriteRows, List.getD_eq_getElem?_getD, hr]

theorem readBlock_sprite {s : State} {n : Nat} (hfits : n = 0 ∨ s.ea (n - 1) < 4096) :
    Memory.readBlock s.mem (s.ea 0) n = some (s.spriteRows n) := by
  have hend : n = 0 ∨ s.ea 0 + n ≤ 4096 := by
    simp only [State.ea] at hfits ⊢
    omega
  rw [Memory.readBlock_eq, if_pos hend, State.ea, Nat.add_zero]
  rfl

/-- The pixels that DRW toggles, as display indices (R151). -/
def State.spritePixels (s : State) (x y : RegIx) (n : Nat) : List Nat :=
  spriteIndices (s.reg x).toNat (s.reg y).toNat 0 (s.spriteRows n)

theorem State.spritePixels_nodup (s : State) (x y : RegIx) {n : Nat} (hn : n < 16) : (s.spritePixels x y n).Nodup :=
  spriteIndices_nodup _ _ _ _ (by rw [State.spriteRows_length]; omega)

/-- Pixel (px, py) is toggled exactly where a 1 bit of the sprite lands on it. -/
theorem State.mem_spritePixels_iff (s : State) (x y : RegIx) (n : Nat) {px : Nat} (hpx : px < 64) (py : Nat) :
    64 * py + px ∈ s.spritePixels x y n ↔ SpriteCovers s (s.reg x).toNat (s.reg y).toNat n px py := by
  rw [State.spritePixels, mem_spriteIndices, SpriteCovers, State.spriteRows_length]
  refine exists_congr fun r => exists_congr fun c => and_congr_right fun hr => and_congr_right fun _ => ?_
  rw [State.spriteRows_getD s hr, Nat.zero_add, eq_comm (b := 64 * py + px), pixelIndex_eq_iff _ _ _ _ _ _ hpx]
  tauto

/-! ### What DRW answers -/

/-- The canvas after the sprite is drawn on the display (R152). -/
def State.drawn (s : State) (x y : RegIx) (n : Nat) : Canvas :=
  (s.spritePixels x y n).foldl toggle (s.display, false)

theorem exec_drw_of_fits {s : State} {n : Nat} (hfits : n = 0 ∨ s.ea (n - 1) < 4096) (x y : RegIx) :
    exec (.drw x y n) s = .next ({ s.advance with display := (s.drawn x y n).1 }.setReg VF
      (collisionFlag (s.drawn x y n).2)) := by
  simp only [exec, execDrw, readBlock_sprite hfits, drawRows_eq_foldl, Option.map_some, commit_some]
  rfl

theorem exec_drw_of_outside {s : State} {n : Nat} (hn : 1 ≤ n) (hout : 4096 ≤ s.ea (n - 1)) (x y : RegIx) :
    exec (.drw x y n) s = .next (s.raise .memoryFault) := by
  have hnone : Memory.readBlock s.mem (s.ea 0) n = none := by
    rw [Memory.readBlock_eq_none_iff]
    simp only [State.ea] at hout ⊢
    omega
  simp only [exec, execDrw, hnone, Option.map_none, commit_none]

theorem collisionFlag_toNat (collided : Bool) : (collisionFlag collided).toNat = collided.toNat := by
  cases collided <;> rfl

section
variable {s t : State} {x y : RegIx} {n : Nat}

/-- A pixel is flipped exactly where it is toggled, for no pixel is toggled twice (R153). -/
theorem pixel_of_exec_drw (hn : n < 16) (hfits : n = 0 ∨ s.ea (n - 1) < 4096) (h : exec (.drw x y n) s = .next t)
    {i : Nat} (hi : i < 2048) : t.pixel i = if i ∈ s.spritePixels x y n then !s.pixel i else s.pixel i := by
  rw [exec_drw_of_fits hfits] at h
  cases h
  exact foldl_toggle_displayBit _ (s.spritePixels_nodup x y hn) _ i hi

theorem pixel_ne_iff_of_exec_drw (hn : n < 16) (hfits : n = 0 ∨ s.ea (n - 1) < 4096)
    (h : exec (.drw x y n) s = .next t) {i : Nat} (hi : i < 2048) :
    t.pixel i ≠ s.pixel i ↔ i ∈ s.spritePixels x y n := by
  rw [pixel_of_exec_drw hn hfits h hi]
  by_cases hmem : i ∈ s.spritePixels x y n
  · simp [hmem]
  · simp [hmem]

/-- VF tells whether some toggled pixel was lit before. -/
theorem reg_VF_of_exec_drw (hn : n < 16) (hfits : n = 0 ∨ s.ea (n - 1) < 4096) (h : exec (.drw x y n) s = .next t) :
    (t.reg VF).toNat = 1 ↔ ∃ i ∈ s.spritePixels x y n, s.pixel i = true := by
  rw [exec_drw_of_fits hfits] at h
  cases h
  rw [State.reg_setReg_same, collisionFlag_toNat, Bool.toNat_eq_one, State.drawn,
    foldl_toggle_collided _ (s.spritePixels_nodup x y hn) fun _ => spriteIndices_lt, Bool.false_or, List.any_eq_true]
  rfl

/-- DRW keeps the sprite that it draws. -/
theorem sprite_of_exec_drw (hfits : n = 0 ∨ s.ea (n - 1) < 4096) (h : exec (.drw x y n) s = .next t) :
    t.I = s.I ∧ t.mem = s.mem := by
  rw [exec_drw_of_fits hfits] at h
  cases h
  exact ⟨rfl, rfl⟩

end

/-- A property of some toggled pixel, by its column and row. -/
theorem State.exists_spritePixel_iff (s : State) (x y : RegIx) (n : Nat) (lit : Nat → Prop) :
    (∃ i ∈ s.spritePixels x y n, lit i) ↔ ∃ px py, px < 64 ∧ py < 32 ∧ lit (64 * py + px) ∧
      SpriteCovers s (s.reg x).toNat (s.reg y).toNat n px py := by
  constructor
  · rintro ⟨i, hi, hlit⟩
    have hlt := spriteIndices_lt hi
    have hsplit : 64 * (i / 64) + i % 64 = i := Nat.div_add_mod i 64
    have hpx : i % 64 < 64 := Nat.mod_lt i (by decide)
    rw [← hsplit] at hi hlit
    exact ⟨i % 64, i / 64, hpx, by omega, hlit, (s.mem_spritePixels_iff x y n hpx _).mp hi⟩
  · rintro ⟨px, py, hpx, -, hlit, hcovers⟩
    exact ⟨_, (s.mem_spritePixels_iff x y n hpx py).mpr hcovers, hlit⟩

/-- Settles O34: the toggled pixels are the covered ones, each toggled once, and the collision bit looks at them as they
were. -/
theorem drwFlipsWhatTheSpriteCovers : Obligations.DrwFlipsWhatTheSpriteCovers := by
  refine ⟨fun x y n hn => wordIs_drw hn x y, fun x y n s hn hfits => ?_,
    fun x y n s hn hout => exec_drw_of_outside hn hout x y⟩
  have h := exec_drw_of_fits hfits x y
  refine ⟨_, h, fun px py hpx hpy => ?_, ?_, ?_, rfl, fun r hr => ?_, unchangedBut_of_eq_patch rfl⟩
  · exact (pixel_ne_iff_of_exec_drw hn hfits h (by omega)).trans (s.mem_spritePixels_iff x y n hpx py)
  · exact (reg_VF_of_exec_drw hn hfits h).trans (s.exists_spritePixel_iff x y n fun i => s.pixel i = true)
  · rw [State.reg_setReg_same, collisionFlag_toNat]
    exact Bool.toNat_le _
  · exact State.reg_setReg_ne _ VF r _ (List.ne_of_not_mem_cons hr)

/-! ### Drawing twice -/

/-- The same sprite covers the same pixels where I and memory are the same. -/
theorem State.spritePixels_congr {s t : State} {x y : RegIx} (hx : t.reg x = s.reg x) (hy : t.reg y = s.reg y)
    (hI : t.I = s.I) (hmem : t.mem = s.mem) (n : Nat) : t.spritePixels x y n = s.spritePixels x y n := by
  simp only [State.spritePixels, State.spriteRows, State.byte, hx, hy, hI, hmem]

/-- Settles O35: both draws toggle the same pixels, so the second takes the first back, and it collides where the first
had lit a pixel. -/
theorem drawingTwiceRestoresThePixels : Obligations.DrawingTwiceRestoresThePixels := by
  intro x y n s t u hn hfits hst hx hy htu
  obtain ⟨hI, hmem⟩ := sprite_of_exec_drw hfits hst
  have hfits' : n = 0 ∨ t.ea (n - 1) < 4096 := by rwa [State.ea, hI]
  have hsame := State.spritePixels_congr hx hy hI hmem n
  refine ⟨fun i hi => ?_, ?_⟩
  · rw [pixel_of_exec_drw hn hfits' htu hi, pixel_of_exec_drw hn hfits hst hi, hsame]
    split <;> simp
  · rw [reg_VF_of_exec_drw hn hfits' htu, hsame, ← s.exists_spritePixel_iff x y n fun i => s.pixel i = false]
    refine exists_congr fun i => and_congr_right fun hi => ?_
    rw [pixel_of_exec_drw hn hfits hst (spriteIndices_lt hi), if_pos hi, Bool.not_eq_true']

end Sys2Proof.Machine
end

section
/-! PROOFS. Two runs side by side: ST, the host's byte and the call-stack slots are hidden from all instructions but those
that name them (R28, R165, R184). -/

namespace Sys2Proof.Machine

/-! ### Changing what is hidden -/

/-- The state with its slots, its ST and its host's side replaced, each by a function of the old value. -/
def State.mapHidden (k : Vector Word 16 → Vector Word 16) (v : Byte → Byte) (h : HostSide → HostSide) (s : State) : State :=
  { s with stack := k s.stack, st := v s.st, host := h s.host }

theorem State.withRnd_eq_mapHidden (s : State) (r : Byte) :
    s.withRnd r = s.mapHidden id id (fun h => { h with rnd := r }) := rfl

/-- An instruction that may raise commutes with `F` where its raise and its result do. -/
theorem commit_map_comm {α : Type} {F : State → State} {s s' t : State} {f : Fault} {r : Option α} {g g' : α → State}
    (h : commit s f (r.map g) = .next t) (hraise : s'.raise f = F (s.raise f)) (hdone : ∀ a, g' a = F (g a)) :
    commit s' f (r.map g') = .next (F t) := by
  obtain ⟨a, rfl, rfl⟩ | ⟨rfl, rfl⟩ := commit_map_cases h
  · rw [Option.map_some, commit_some, hdone]
  · rw [Option.map_none, commit_none, hraise]

section
variable {k : Vector Word 16 → Vector Word 16} {v : Byte → Byte} {h : HostSide → HostSide}

theorem State.mapHidden_skipIf (s : State) (c : Bool) : (s.mapHidden k v h).skipIf c = (s.skipIf c).mapHidden k v h := by
  cases c <;> rfl

/-- Replacing what is hidden before an instruction is replacing it after, but for RET and CALL on the slots, LD_ST_VX on ST
and RND on the byte. -/
theorem exec_mapHidden {i : Instr} {s t : State} (he : exec i s = .next t)
    (hk : k = id ∨ (i ≠ .ret ∧ ∀ nnn, i ≠ .call nnn)) (hv : v = id ∨ ∀ x, i ≠ .ldStVx x)
    (hh : (h s.host).rnd = s.host.rnd ∨ ∀ x nn, i ≠ .rnd x nn) :
    exec i (s.mapHidden k v h) = .next (t.mapHidden k v h) := by
  cases i with
  | nop | cls | jp | jpV0 | ldImm | addImm | ldReg | or | and | xor | addReg | sub | shr | subn | shl | ldVxDt
  | ldI | addI | ldF | ldDtVx =>
    cases he
    rfl
  | seImm | sneImm | seReg | sneReg =>
    cases he
    exact congrArg Host.Outcome.next (State.mapHidden_skipIf s.advance _)
  | waitkey x =>
    obtain ⟨hkey, rfl⟩ | ⟨key, hkey, rfl⟩ := exec_waitkey_cases he
    · exact exec_waitkey_of_lowestKey_eq_none (s := t.mapHidden k v h) hkey x
    · exact exec_waitkey_of_lowestKey_eq_some (s := s.mapHidden k v h) hkey x
  | skp | sknp => exact commit_map_comm he rfl fun _ => State.mapHidden_skipIf s.advance _
  | drw | bcd | store | load => exact commit_map_comm he rfl fun _ => rfl
  | rnd x nn =>
    have hrnd := hh.resolve_right (by simp)
    cases he
    simp only [exec, execRnd, State.mapHidden, hrnd]
    rfl
  | ldStVx x =>
    obtain rfl := hv.resolve_right (by simp)
    cases he
    rfl
  | ret =>
    obtain rfl := hk.resolve_right (by simp)
    obtain ⟨hsp, rfl⟩ | ⟨d, hsp, rfl⟩ := exec_ret_cases he
    · exact exec_ret_of_empty (s := s.mapHidden id v h) hsp
    · exact exec_ret_of_pos (s := s.mapHidden id v h) hsp
  | call nnn =>
    obtain rfl := hk.resolve_right (by simp)
    obtain ⟨hsp, rfl⟩ | ⟨d, hsp, rfl⟩ := exec_call_cases he
    · exact exec_call_of_full (s := s.mapHidden id v h) hsp nnn
    · exact exec_call_of_lt (s := s.mapHidden id v h) hsp nnn

end

/-! ### ST -/

/-- Two runs that differ in ST only end in states that differ in ST only (R165). -/
theorem exec_with_st {i : Instr} {s t : State} (h : exec i s = .next t) (v : Byte) :
    ∃ t', exec i { s with st := v } = .next t' ∧ UnchangedBut [.st] t t' := by
  by_cases hst : ∃ x, i = .ldStVx x
  · obtain ⟨x, rfl⟩ := hst
    cases h
    exact ⟨_, rfl, unchangedBut_of_eq_patch rfl⟩
  · have hst : ∀ x, i ≠ .ldStVx x := not_exists.mp hst
    exact ⟨_, exec_mapHidden (k := id) (v := fun _ => v) (h := id) h (.inl rfl) (.inr hst) (.inl rfl),
      unchangedBut_of_eq_patch rfl⟩

/-! ### The slots at or above sp -/

/-- RET reads the slot below sp only, and lowers sp. -/
theorem exec_ret_sameLive {s t s' : State} (hlive : SameLive s t) (h : exec .ret s = .next s') :
    ∃ t', exec .ret t = .next t' ∧ SameLive s' t' := by
  obtain ⟨ht, hslots⟩ := hlive
  rw [ht]
  obtain ⟨hsp, rfl⟩ | ⟨k, hsp, rfl⟩ := exec_ret_cases h
  · exact ⟨_, exec_ret_of_empty (s := { s with stack := t.stack }) hsp, rfl, hslots⟩
  · refine ⟨_, exec_ret_of_pos (s := { s with stack := t.stack }) hsp, ?_, fun j hj => hslots j ?_⟩
    · simp only [hslots k (by omega)]
    · simp only [Fin.val_castSucc] at hj
      omega

/-- CALL writes the same word to the slot that comes to lie below sp. -/
theorem exec_call_sameLive {nnn : Word} {s t s' : State} (hlive : SameLive s t) (h : exec (.call nnn) s = .next s') :
    ∃ t', exec (.call nnn) t = .next t' ∧ SameLive s' t' := by
  obtain ⟨ht, hslots⟩ := hlive
  rw [ht]
  obtain ⟨hsp, rfl⟩ | ⟨k, hsp, rfl⟩ := exec_call_cases h
  · exact ⟨_, exec_call_of_full (s := { s with stack := t.stack }) hsp nnn, rfl, hslots⟩
  · refine ⟨_, exec_call_of_lt (s := { s with stack := t.stack }) hsp nnn, rfl, fun j hj => ?_⟩
    simp only [Fin.val_succ] at hj
    simp only [Vector.get_eq_getElem, Vector.getElem_set]
    split
    · rfl
    · exact hslots j (by omega)

/-- An instruction that leaves sp and the slots alone leaves the stale slots as they are. -/
theorem exec_sameLive {i : Instr} {s t s' : State} (hlive : SameLive s t) (h : exec i s = .next s') (hret : i ≠ .ret)
    (hcall : ∀ nnn, i ≠ .call nnn) : ∃ t', exec i t = .next t' ∧ SameLive s' t' := by
  obtain ⟨ht, hslots⟩ := hlive
  have hsp : s'.sp = s.sp :=
    exec_frame h .sp fun hmem => (eq_ret_or_call_of_sp_mem hmem).elim hret fun ⟨nnn, hi⟩ => hcall nnn hi
  have hstack : ∀ j : Fin 16, s'.stack.get j = s.stack.get j :=
    exec_frame h .stack fun hmem => (eq_call_of_stack_mem hmem).elim hcall
  have hrun := exec_mapHidden (k := fun _ => t.stack) (v := id) (h := id) h (.inr ⟨hret, hcall⟩) (.inl rfl) (.inl rfl)
  rw [ht]
  exact ⟨_, hrun, rfl, fun j hj => (hslots j (hsp ▸ hj)).trans (hstack j).symm⟩

/-! ### The obligations -/

/-- Settles O46: the byte is part of the host's side, which RND alone reads. -/
theorem onlyRndReadsTheRandomByte : Obligations.OnlyRndReadsTheRandomByte := by
  intro i s t r hrnd h
  rw [State.withRnd_eq_mapHidden, State.withRnd_eq_mapHidden]
  exact exec_mapHidden h (.inl rfl) (.inl rfl) (.inr hrnd)

/-- Settles O47: RET and CALL by what they do to the slots, every other instruction because it does nothing to them. -/
theorem staleSlotsAreUnobservable : Obligations.StaleSlotsAreUnobservable := by
  intro i s t s' hlive h
  by_cases hret : i = .ret
  · subst hret
    exact exec_ret_sameLive hlive h
  · by_cases hcall : ∃ nnn, i = .call nnn
    · obtain ⟨nnn, rfl⟩ := hcall
      exact exec_call_sameLive hlive h
    · exact exec_sameLive hlive h hret (not_exists.mp hcall)

end Sys2Proof.Machine
end

section
/-! PROOFS. Keys and timer access (45_keys_and_timer_access.md): the skips on a key, and the moves between a register and a
timer. -/

namespace Sys2Proof.Machine

/-! ### The words -/

/-- EXnn is the instruction on V[x] that family E selects for the low byte `nn` (R76). -/
theorem wordIs_EXnn {i : RegIx → Instr} {nn : Byte}
    (hsel : ∀ op, fieldNN op = nn → decodeFamE op = some (i (fieldX op))) (x : RegIx) :
    WordIs (0xE000 + nn.toNat + 256 * x.val) (i x) := by
  obtain ⟨hfam, hx, hnn⟩ := fields_of_immediate (fam := 0xE) (by decide) x nn
  have hword : 0xE000 + nn.toNat + 256 * x.val = 4096 * 0xE + 256 * x.val + nn.toNat := by omega
  simp only [WordIs, hword, decodeWord, hfam, hsel _ hnn, hx]

theorem wordIs_skp : ∀ x : RegIx, WordIs (0xE09E + 256 * x.val) (.skp x) :=
  wordIs_EXnn (nn := 0x9E#8) fun op hop => by simp [decodeFamE, hop]

theorem wordIs_sknp : ∀ x : RegIx, WordIs (0xE0A1 + 256 * x.val) (.sknp x) :=
  wordIs_EXnn (nn := 0xA1#8) fun op hop => by simp [decodeFamE, hop]

theorem wordIs_ldVxDt : ∀ x : RegIx, WordIs (0xF007 + 256 * x.val) (.ldVxDt x) :=
  wordIs_FXnn (nn := 0x07#8) fun op hop => by simp [decodeFamF, hop]

theorem wordIs_ldDtVx : ∀ x : RegIx, WordIs (0xF015 + 256 * x.val) (.ldDtVx x) :=
  wordIs_FXnn (nn := 0x15#8) fun op hop => by simp [decodeFamF, hop]

theorem wordIs_ldStVx : ∀ x : RegIx, WordIs (0xF018 + 256 * x.val) (.ldStVx x) :=
  wordIs_FXnn (nn := 0x18#8) fun op hop => by simp [decodeFamF, hop]

/-! ### The skips on a key -/

section
variable {s : State} {x : RegIx} {k : Fin 16}

theorem keyRead_of_reg_eq (hk : (s.reg x).toNat = k.val) : s.keyRead (s.reg x).toNat = some (s.keys.get k) := by
  rw [hk]
  exact s.keyRead_of_lt k.val k.isLt

theorem exec_skp_of_reg_eq (hk : (s.reg x).toNat = k.val) :
    exec (.skp x) s = .next (s.setPc (if s.keys.get k then s.pc + 4#16 else s.pc + 2#16)) := by
  simp only [exec, execSkp, keyRead_of_reg_eq hk, Option.map_some, commit_some, State.advance_skipIf_eq_setPc]

theorem exec_sknp_of_reg_eq (hk : (s.reg x).toNat = k.val) :
    exec (.sknp x) s = .next (s.setPc (if s.keys.get k then s.pc + 2#16 else s.pc + 4#16)) := by
  simp only [exec, execSknp, keyRead_of_reg_eq hk, Option.map_some, commit_some, State.advance_skipIf_eq_setPc]
  cases s.keys.get k <;> rfl

theorem exec_skp_of_gt (hx : 15 < (s.reg x).toNat) : exec (.skp x) s = .next (s.raise .memoryFault) := by
  simp only [exec, execSkp, s.keyRead_of_ge _ hx, Option.map_none, commit_none]

theorem exec_sknp_of_gt (hx : 15 < (s.reg x).toNat) : exec (.sknp x) s = .next (s.raise .memoryFault) := by
  simp only [exec, execSknp, s.keyRead_of_ge _ hx, Option.map_none, commit_none]

end

/-! ### The timer moves -/

theorem exec_ldVxDt (x : RegIx) (s : State) : exec (.ldVxDt x) s = .next (s.advance.setReg x s.dt) := rfl

theorem exec_ldDtVx (x : RegIx) (s : State) : exec (.ldDtVx x) s = .next { s.advance with dt := s.reg x } := rfl

theorem exec_ldStVx (x : RegIx) (s : State) : exec (.ldStVx x) s = .next { s.advance with st := s.reg x } := rfl

/-! ### The obligations -/

/-- Settles O36: with a key number in V[x] only the pc is set, by the level of that key. -/
theorem keySkipsReadTheLevel : Obligations.KeySkipsReadTheLevel :=
  ⟨fun x => ⟨wordIs_skp x, wordIs_sknp x⟩,
    fun _ s _ hk => ⟨⟨_, exec_skp_of_reg_eq hk, unchangedBut_setPc s _, rfl⟩,
      ⟨_, exec_sknp_of_reg_eq hk, unchangedBut_setPc s _, rfl⟩⟩,
    fun _ _ hx => ⟨exec_skp_of_gt hx, exec_sknp_of_gt hx⟩⟩

/-- Settles O38: each move writes its one destination and the pc, and ST is hidden from every instruction. -/
theorem timerMoves : Obligations.TimerMoves :=
  ⟨fun x => ⟨wordIs_ldVxDt x, wordIs_ldDtVx x, wordIs_ldStVx x⟩,
    fun x s => ⟨_, exec_ldVxDt x s, State.reg_setReg_same _ x _, advance_setReg_frame s x _⟩,
    fun x s => ⟨_, exec_ldDtVx x s, rfl, rfl, unchangedBut_of_eq_patch rfl⟩,
    fun x s => ⟨_, exec_ldStVx x s, rfl, rfl, unchangedBut_of_eq_patch rfl⟩,
    fun _ _ _ v h => exec_with_st h v, fun _ _ => rfl⟩

end Sys2Proof.Machine
end

section
/-! PROOFS. The TICK frame (40_tick_cycle.md, 47_host_commands.md): which instruction a TICK and a step run, and on which
state. -/

namespace Sys2Proof.Machine

/-! ### The TICK of a word that decodes -/

/-- A TICK of a running block runs the instruction of the fetched word (R90, R94). -/
theorem tick_of_decodes {s : State} (hs : s.fault = none) {op : Word} {i : Instr} (hop : s.fetch = some op)
    (hd : decodeWord op = some i) (rnd : Byte) : tick rnd s = exec i (s.withRnd rnd) := by
  rw [tick_running hs, runTick_of_decodes ((s.fetch_withRnd rnd).trans hop) hd]

/-- Two bytes that decode are an opcode word that decodes (R70). -/
theorem decodeWord_of_decode_cons {hi lo : Byte} {bytes rest : List Byte} {i : Instr}
    (h : decode (hi :: lo :: bytes) = .ok (i, rest)) : decodeWord (wordOfBytes hi lo) = some i := by
  cases hd : decodeWord (wordOfBytes hi lo) with
  | none => simp [decode, hd] at h
  | some j =>
    simp only [decode, hd, Except.ok.injEq, Prod.mk.injEq] at h
    obtain ⟨rfl, -⟩ := h
    rfl

/-! ### The step -/

/-- With something pending a step performs the oldest command (R180). -/
theorem step_of_inbox_cons {s : State} {c : Command} {cs : List Command} (hi : s.host.inbox = c :: cs) :
    step s = perform c { s with host := { s.host with inbox := cs } } := by
  simp only [step, nextCommand, hi]

/-- With nothing pending a step performs what the host chooses (R174). -/
theorem step_of_inbox_nil {s : State} (hi : s.host.inbox = []) :
    step s = perform (Config.hostCommand s.host.draws) { s with host := { s.host with draws := s.host.draws + 1 } } := by
  simp only [step, nextCommand, hi, State.freshCommand]

/-- A step whose oldest command is a TICK runs the instruction of the fetched word. -/
theorem step_of_pending_tick {s : State} (hs : s.fault = none) {op : Word} {i : Instr} (hop : s.fetch = some op)
    (hd : decodeWord op = some i) {rnd : Byte} {cs : List Command} (hi : s.host.inbox = .tick rnd :: cs) :
    step s = exec i { s with host := { inbox := cs, rnd := rnd, draws := s.host.draws } } := by
  rw [step_of_inbox_cons hi]
  exact tick_of_decodes (s := { s with host := { s.host with inbox := cs } }) hs hop hd rnd

/-! ### The placed word -/

theorem State.pc_placeWord (s : State) (op : Word) :
    (s.placeWord op).pc = if s.pc.toNat ≤ 4094 then s.pc else 0x200#16 := by
  simp only [State.placeWord, Nat.lt_succ_iff]

theorem State.pc_placeWord_le (s : State) (op : Word) : (s.placeWord op).pc.toNat ≤ 4094 := by
  rw [State.pc_placeWord]
  split
  · assumption
  · decide

/-- The bytes of a state with a word placed at its pc. -/
theorem State.byte_placeWord (s : State) (op : Word) (a : Nat) :
    (s.placeWord op).byte a =
      if a = (s.placeWord op).pc.toNat + 1 then op.extractLsb' 0 8
      else if a = (s.placeWord op).pc.toNat then op.extractLsb' 8 8 else s.byte a := by
  exact (Memory.get_put _ _ a _).trans (by rw [Memory.get_put]; rfl)

/-- What is placed is what the next fetch returns (R54). -/
theorem State.fetch_placeWord (s : State) (op : Word) : (s.placeWord op).fetch = some op := by
  rw [State.fetch_eq, if_pos (s.pc_placeWord_le op), State.byte_placeWord, State.byte_placeWord, if_neg (by omega),
    if_pos rfl, if_pos rfl, wordOfBytes_bytesOfWord]

theorem decodeTableWord_eq_decodeWord (w : Nat) :
    decodeTableWord 16 w = decodeWord (BitVec.ofNat 16 (w % 2 ^ 16)) := by
  unfold decodeTableWord
  generalize BitVec.ofNat 16 (w % 2 ^ 16) = op
  have hbytes := decode_bytesOfWord op []
  rw [List.append_nil] at hbytes
  rw [hbytes]
  cases decodeWord op <;> rfl

/-! ### The obligations -/

/-- Settles O8: the fetch is the first check, and the latch is all that it writes. -/
theorem fetchOutsideMemoryFaults : Obligations.FetchOutsideMemoryFaults :=
  fun _ rnd hs hpc => ⟨_, tick_of_pc_gt hs hpc rnd, State.fault_raise _ _, unchangedBut_of_eq_patch rfl⟩

/-- Settles O9: inside memory the two bytes at the pc are the fetched word, and the inbox decides the command. -/
theorem stepRunsTheDecodedInstruction : Obligations.StepRunsTheDecodedInstruction := by
  refine ⟨fun s i rest hs hpc hdecode => ?_, fun s c cs => step_of_inbox_cons, fun s => step_of_inbox_nil⟩
  have hd := decodeWord_of_decode_cons hdecode
  have hop := s.fetch_eq
  rw [if_pos hpc] at hop
  exact ⟨tick_of_decodes hs hop hd, fun rnd cs => step_of_pending_tick hs hop hd⟩

/-- Settles O10: the placed word is fetched by the placed TICK, the only command pending. -/
theorem placedWordRunsNext : Obligations.PlacedWordRunsNext := by
  intro s w i h
  have hd := (decodeTableWord_eq_decodeWord w).symm.trans h
  have hstep := step_of_pending_tick (s := s.withFetchWord 16 w) rfl (s.fetch_placeWord _) hd rfl
  refine ⟨_, hstep, rfl, s.pc_placeWord (BitVec.ofNat 16 (w % 2 ^ 16)), fun a hpc hpc' => ?_, unchangedBut_of_eq_patch rfl⟩
  exact (s.byte_placeWord _ a).trans ((if_neg hpc').trans (if_neg hpc))

/-- Settles O48: the JP fetched at its own address sets the pc to what it is. -/
theorem selfJumpIdles : Obligations.SelfJumpIdles := by
  intro s r hs hpc hop
  have hd : WordIs (0x1000 + s.pc.toNat) (.jp (BitVec.ofNat 16 s.pc.toNat)) := wordIs_jp (by omega)
  rw [BitVec.ofNat_toNat, BitVec.setWidth_eq] at hd
  exact ⟨_, (tick_of_decodes hs hop hd r).trans (exec_jp _ _), rfl⟩

end Sys2Proof.Machine
end

section
/-! PROOFS. Faults and the halted state (60_exceptions.md): a fault is precise, only RESET leaves the halted state, and every
step has a next state. -/

namespace Sys2Proof.Machine

/-! ### Every command answers a next state -/

/-- No instruction that a TICK runs is refused or stops the machine. -/
theorem runTick_total {s : State} (hs : s.fault = none) : ∃ t, runTick s = .next t := by
  cases hop : s.fetch with
  | none => exact ⟨_, runTick_of_fetch_none hop⟩
  | some op =>
    cases hd : decodeWord op with
    | none => exact ⟨_, runTick_of_illegal hop hd⟩
    | some i =>
      obtain ⟨t, ht, -⟩ := faultsAsListed hs i
      exact ⟨t, (runTick_of_decodes hop hd).trans ht⟩

/-- While FAULT is set no command but RESET changes anything (R211, decision D3). -/
theorem perform_of_halted {s : State} (hs : s.fault ≠ none) {c : Command} (hc : c ≠ .reset) : perform c s = .next s := by
  cases c with
  | reset => exact absurd rfl hc
  | load bytes => rw [perform, loadRom_halted hs]
  | tick rnd => exact tick_halted hs rnd
  | tickTimers => rw [perform, tickTimers_halted hs]
  | keypress index pressed => rw [perform, keypress_halted hs]
  | display => rfl

theorem perform_total (c : Command) (s : State) : ∃ t, perform c s = .next t := by
  cases c with
  | tick rnd =>
    by_cases hs : s.fault = none
    · obtain ⟨t, ht⟩ := runTick_total (s := s.withRnd rnd) hs
      exact ⟨t, (tick_running hs rnd).trans ht⟩
    · exact ⟨s, tick_halted hs rnd⟩
  | reset | load | tickTimers | keypress | display => exact ⟨_, rfl⟩

/-! ### A fault is precise (R209, decision D5) -/

/-- An instruction that changes FAULT raises, and changes nothing else. -/
theorem exec_keeps_fault_or_raises {i : Instr} {s t : State} (h : exec i s = .next t) :
    t.fault = s.fault ∨ ∃ f, t = s.raise f := by
  cases i with
  | ret =>
    obtain ⟨-, rfl⟩ | ⟨k, -, rfl⟩ := exec_ret_cases h
    · exact .inr ⟨_, rfl⟩
    · exact .inl rfl
  | call =>
    obtain ⟨-, rfl⟩ | ⟨k, -, rfl⟩ := exec_call_cases h
    · exact .inr ⟨_, rfl⟩
    · exact .inl rfl
  | drw | bcd | store | load | skp | sknp =>
    obtain ⟨_, -, rfl⟩ | ⟨-, rfl⟩ := commit_map_cases h
    · exact .inl (by simp)
    · exact .inr ⟨_, rfl⟩
  | _ => exact .inl (exec_frame h .fault (by simp [mayChange]))

/-- What a command leaves that set FAULT: the latch and the host's side apart, everything as it was. -/
def Precise (s t : State) : Prop := t = { s with fault := t.fault, host := t.host }

theorem precise_raise (s : State) (f : Fault) : Precise s (s.raise f) := rfl

/-- The TICK body completes or is precise, whichever of its three checks raises. -/
theorem runTick_clear_or_precise {s t : State} (hs : s.fault = none) (h : runTick s = .next t) :
    t.fault = none ∨ Precise s t := by
  obtain ⟨-, rfl⟩ | ⟨op, -, -, rfl⟩ | ⟨op, i, -, -, hexec⟩ := runTick_cases h
  · exact .inr (precise_raise s _)
  · exact .inr (precise_raise s _)
  · obtain hfault | ⟨f, rfl⟩ := exec_keeps_fault_or_raises hexec
    · exact .inl (hfault.trans hs)
    · exact .inr (precise_raise s f)

theorem loadRom_clear_or_precise {s : State} (hs : s.fault = none) (bytes : List Byte) :
    (loadRom bytes s).fault = none ∨ Precise s (loadRom bytes s) := by
  cases hl : s.loaded with
  | true =>
    rw [loadRom_of_loaded hs hl]
    exact .inr (precise_raise s _)
  | false =>
    by_cases hb : bytes.length ≤ 3584
    · obtain ⟨m, -, hload⟩ := loadRom_of_fits hs hl hb
      rw [hload]
      exact .inl hs
    · rw [loadRom_of_oversize hs hl (not_le.mp hb)]
      exact .inr (precise_raise s _)

theorem keypress_clear_or_precise {s : State} (hs : s.fault = none) (index : Nat) (pressed : Bool) :
    (keypress index pressed s).fault = none ∨ Precise s (keypress index pressed s) := by
  by_cases hi : index < 16
  · rw [keypress_of_lt hs hi]
    exact .inl hs
  · rw [keypress_of_ge hs (by omega)]
    exact .inr (precise_raise s _)

/-- Whichever command sets FAULT, it changes nothing else of the block. -/
theorem perform_clear_or_precise {c : Command} {s t : State} (hs : s.fault = none) (h : perform c s = .next t) :
    t.fault = none ∨ Precise s t := by
  cases c with
  | reset =>
    cases h
    exact .inl rfl
  | display =>
    cases h
    exact .inl hs
  | load bytes =>
    cases h
    exact loadRom_clear_or_precise hs bytes
  | tickTimers =>
    cases h
    rw [tickTimers_running hs]
    exact .inl hs
  | keypress index pressed =>
    cases h
    exact keypress_clear_or_precise hs index pressed
  | tick rnd =>
    obtain ⟨hne, -⟩ | ⟨-, hrun⟩ := tick_cases h
    · exact absurd hs hne
    · exact runTick_clear_or_precise (s := s.withRnd rnd) hs hrun

/-! ### The FAULT output (R201) -/

/-- The latch that a FAULT output stands for. -/
def faultOfOutput (kind : BitVec 3) (info : Word) : Option Fault :=
  if kind = 1 then some .memoryFault
  else if kind = 2 then some .stackFault
  else if kind = 3 then some (.invalidOpcode info)
  else if kind = 4 then some .loadFault
  else none

/-- The output loses nothing of the latch. -/
theorem faultOfOutput_kind_info : ∀ f : Option Fault, faultOfOutput (faultKind f) (faultInfo f) = f
  | none => rfl
  | some .memoryFault => rfl
  | some .stackFault => rfl
  | some (.invalidOpcode _) => rfl
  | some .loadFault => rfl

theorem faultKind_eq_zero_iff (f : Option Fault) : faultKind f = 0#3 ↔ f = none := by
  match f with
  | none => simp [faultKind]
  | some .memoryFault | some .stackFault | some (.invalidOpcode _) | some .loadFault => simp [faultKind]

/-! ### The obligations -/

/-- Settles O40: a step is one command, and a command that sets FAULT is precise. -/
theorem aFaultingStepCommitsNothing : Obligations.AFaultingStepCommitsNothing := by
  intro s t hs hstep hfault
  obtain ⟨host, hperform, -⟩ := step_performs s
  rw [hperform] at hstep
  exact (perform_clear_or_precise (s := { s with host := host }) hs hstep).resolve_left hfault

/-- Settles O41: each command but RESET looks at FAULT first; the two replies look at it or not as they are specified. -/
theorem onlyResetLeavesTheHaltedState : Obligations.OnlyResetLeavesTheHaltedState := by
  intro s hs
  refine ⟨fun c hc => ⟨s, perform_of_halted hs hc, rfl⟩, ⟨s.restart, rfl, rfl⟩, ?_, s.display, rfl, fun _ => rfl⟩
  rw [reply, s.halted_iff.mpr hs]
  rfl

/-- Settles O42: the latch can be read back from kind and info, and only the clear latch has kind 0. -/
theorem faultOutputTellsTheLatch : Obligations.FaultOutputTellsTheLatch := by
  refine ⟨fun f g hkind hinfo => ?_, fun s => ?_⟩
  · rw [← faultOfOutput_kind_info f, hkind, hinfo, faultOfOutput_kind_info]
  · rw [faultKind_eq_zero_iff, State.halted, Option.isSome_eq_false_iff, Option.isNone_iff_eq_none]

/-- Settles O43: a step is one command, every command answers, and the halted block ignores all but RESET. -/
theorem everyStepHasANextState : Obligations.EveryStepHasANextState := by
  intro s
  obtain ⟨host, hperform, -⟩ := step_performs s
  obtain ⟨t, ht⟩ := perform_total (nextCommand s).1 { s with host := host }
  refine ⟨t, hperform.trans ht, fun hs hc => ?_⟩
  have hhalted := perform_of_halted (s := { s with host := host }) hs hc
  rw [hhalted] at ht
  cases ht
  rfl

end Sys2Proof.Machine
end

section
/-! PROOFS. The commands of the host (46_timer_decay.md, 47_host_commands.md, 70_reset_and_hazards.md): what each does to the
block, what it replies, and what a sequence of them does. -/

namespace Sys2Proof.Machine

/-! ### RESET -/

/-- Settles O52: the restarted state is the reset state but for the host's side, field by field. -/
theorem resetInstallsEveryResetValue : Obligations.ResetInstallsEveryResetValue := by
  intro s
  have hV : ∀ r, s.restart.reg r = 0#8 := fun r => Vector.getElem_replicate r.isLt
  have hstack : ∀ k : Fin 16, s.restart.stack.get k = 0#16 := fun k => Vector.getElem_replicate k.isLt
  have hkeys : ∀ k : Fin 16, s.restart.keys.get k = false := fun k => Vector.getElem_replicate k.isLt
  have hfont : ∀ a, a < 80 → s.restart.byte a = Config.font.getD a 0#8 := fun a ha => if_pos ha
  have hzero : ∀ a, 80 ≤ a → s.restart.byte a = 0#8 := fun a ha => State.byte_of_unwritten rfl ha
  exact ⟨s.restart, rfl, rfl, rfl, hV, rfl, rfl, rfl, hstack, hkeys, rfl, rfl, displayBit_blank, hfont, hzero, rfl, rfl⟩

/-! ### TICK_TIMERS -/

/-- The buzzer of a running block (R173). -/
theorem reply_tickTimers {s : State} (hs : s.fault = none) :
    reply .tickTimers s = .buzzer (decide (s.st.toNat = 1)) := by
  rw [reply, State.halted_of_none hs, Bool.not_false, Bool.true_and]
  congr 1
  rw [Bool.eq_iff_iff, beq_iff_eq, decide_eq_true_eq, BitVec.toNat_eq]
  rfl

/-- Settles O54: both timers decay, nothing else is written, and the reply looks at ST before. -/
theorem timersDecayToZero : Obligations.TimersDecayToZero := by
  intro s hs
  refine ⟨{ s with dt := decay s.dt, st := decay s.st }, ?_, decay_toNat _, decay_toNat _, unchangedBut_of_eq_patch rfl,
    reply_tickTimers hs⟩
  rw [perform, tickTimers_running hs]

/-- After k TICK_TIMERS a running block runs and ST is k less, stopping at 0 (R172). -/
theorem iterate_tickTimers {s : State} (hs : s.fault = none) (k : Nat) :
    (tickTimers^[k] s).fault = none ∧ (tickTimers^[k] s).st.toNat = s.st.toNat - k := by
  induction k with
  | zero => exact ⟨hs, rfl⟩
  | succ k ih =>
    obtain ⟨hfault, hst⟩ := ih
    rw [Function.iterate_succ_apply', tickTimers_running hfault]
    refine ⟨hfault, ?_⟩
    rw [decay_toNat, hst, Nat.sub_sub]

/-- Settles O55: ST is 1 after k TICK_TIMERS exactly where it was k + 1. -/
theorem buzzerSoundsOnceAtExpiry : Obligations.BuzzerSoundsOnceAtExpiry := by
  intro s k hs
  obtain ⟨hfault, hst⟩ := iterate_tickTimers hs k
  have hone : s.st.toNat - k = 1 ↔ s.st.toNat = k + 1 := by omega
  rw [reply_tickTimers hfault, hst]
  simp only [hone]

/-! ### KEYPRESS, LOAD and DISPLAY -/

/-- Settles O56: an index up to 15 names a key, and the latch is all that any other index writes. -/
theorem keypressSetsOneKey : Obligations.KeypressSetsOneKey := by
  refine ⟨fun s k pressed hs => ?_, fun s index pressed hs hi => ?_⟩
  · refine ⟨{ s with keys := s.keys.set k.val pressed k.isLt }, ?_, Vector.getElem_set_self k.isLt, fun j hj => ?_,
      unchangedBut_of_eq_patch rfl⟩
    · rw [perform, keypress_of_lt hs k.isLt]
    · exact Vector.getElem_set_ne k.isLt j.isLt (Fin.val_ne_of_ne hj.symm)
  · rw [perform, keypress_of_ge hs hi]
    rfl

/-- Settles O57: LOADED is looked at first, then the size; only a ROM that passes both is written. -/
theorem loadCopiesTheRomOnce : Obligations.LoadCopiesTheRomOnce := by
  refine ⟨fun s bytes hs hl hb => ?_, fun s bytes hs hl => ?_, fun s bytes hs hl hb => ?_⟩
  · have hbyte := byte_loadRom_of_fits hs hl hb
    obtain ⟨m, -, hload⟩ := loadRom_of_fits hs hl hb
    refine ⟨loadRom bytes s, rfl, by rw [hload], fun k hk => ?_, fun a ha => ?_, ?_⟩
    · rw [hbyte, if_pos (by omega), Nat.add_sub_cancel_left]
    · rw [hbyte, if_neg (by omega)]
    · rw [hload]
      exact unchangedBut_of_eq_patch rfl
  · rw [perform, loadRom_of_loaded hs hl]
    rfl
  · rw [perform, loadRom_of_oversize hs hl hb]
    rfl

/-- Bit px of row py is the pixel 64 * py + px (R186). -/
theorem getLsbD_row_eq_displayBit (d : Display) (py : Fin 32) {px : Nat} (hpx : px < 64) :
    (d.get py).getLsbD px = displayBit d (64 * py.val + px) := by
  have hrow : (64 * py.val + px) / 64 = py.val := by omega
  have hcol : (64 * py.val + px) % 64 = px := by omega
  simp [displayBit, hrow, hcol, Vector.get_eq_getElem]

/-- Settles O58: the reply is the display itself, row by row. -/
theorem displayRepliesThePixels : Obligations.DisplayRepliesThePixels := by
  refine ⟨fun s => ⟨rfl, s.display, rfl, fun px py hpx => getLsbD_row_eq_displayBit s.display py hpx⟩,
    fun s c hdisplay htimers => ?_⟩
  cases c with
  | display => exact absurd rfl hdisplay
  | tickTimers => exact absurd rfl htimers
  | reset | load | tick | keypress => rfl

/-! ### What changes a timer (R174) -/

theorem unchangedBut_loadRom (bytes : List Byte) (s : State) : UnchangedBut [.mem, .loaded, .fault] s (loadRom bytes s) := by
  unfold loadRom
  split
  · exact unchangedBut_of_eq_patch rfl
  · split
    · exact unchangedBut_of_eq_patch rfl
    · split <;> exact unchangedBut_of_eq_patch rfl

theorem unchangedBut_keypress (index : Nat) (pressed : Bool) (s : State) :
    UnchangedBut [.keys, .fault] s (keypress index pressed s) := by
  unfold keypress
  split
  · exact unchangedBut_of_eq_patch rfl
  · split <;> exact unchangedBut_of_eq_patch rfl

/-- The command is a TICK of an instruction that lists the piece `p` and ends in `t`. -/
def TickReaches (p : Part) (c : Command) (s t : State) : Prop :=
  ∃ rnd op i, c = .tick rnd ∧ s.fetch = some op ∧ decodeWord op = some i ∧ p ∈ mayChange i ∧
    exec i (s.withRnd rnd) = .next t

/-- A TICK changes a piece other than FAULT and the host's side by the instruction it runs, or not at all. -/
theorem tick_same_or_reaches {p : Part} (hp : p ∉ [.fault, .host]) {rnd : Byte} {s t : State}
    (h : tick rnd s = .next t) : p.same s t ∨ TickReaches p (.tick rnd) s t := by
  obtain ⟨-, rfl⟩ | ⟨-, hrun⟩ := tick_cases h
  · exact .inl (unchangedBut_of_eq_patch (l := [.fault, .host]) rfl p hp)
  · have hrnd : UnchangedBut [.fault, .host] s (s.withRnd rnd) := unchangedBut_of_eq_patch rfl
    obtain ⟨-, rfl⟩ | ⟨op, -, -, rfl⟩ | ⟨op, i, hop, hd, hexec⟩ := runTick_cases hrun
    · exact .inl (unchangedBut_of_eq_patch (l := [.fault, .host]) rfl p hp)
    · exact .inl (unchangedBut_of_eq_patch (l := [.fault, .host]) rfl p hp)
    · by_cases hmem : p ∈ mayChange i
      · exact .inr ⟨rnd, op, i, rfl, hop, hd, hmem, hexec⟩
      · have hkeeps := (hrnd.mono (List.subset_append_left _ (mayChange i))).trans
          ((exec_frame hexec).mono (List.subset_append_right [Part.fault, Part.host] _))
        exact .inl (hkeeps p fun hl => (List.mem_append.mp hl).elim hp hmem)

/-- A timer is changed by RESET, by TICK_TIMERS, or by a TICK of an instruction that lists it. -/
theorem timer_same_or_cause {p : Part} (hp : p = .dt ∨ p = .st) {c : Command} {s t : State}
    (h : perform c s = .next t) : p.same s t ∨ c = .reset ∨ c = .tickTimers ∨ TickReaches p c s t := by
  cases c with
  | reset => exact .inr (.inl rfl)
  | tickTimers => exact .inr (.inr (.inl rfl))
  | load bytes =>
    cases h
    exact .inl (unchangedBut_loadRom bytes s p (by rcases hp with rfl | rfl <;> decide))
  | keypress index pressed =>
    cases h
    exact .inl (unchangedBut_keypress index pressed s p (by rcases hp with rfl | rfl <;> decide))
  | display =>
    cases h
    exact .inl (unchangedBut_of_eq_patch (l := []) rfl p (by simp))
  | tick rnd =>
    exact (tick_same_or_reaches (by rcases hp with rfl | rfl <;> decide) h).imp_right fun h => .inr (.inr h)

/-- Settles O59: LD_DT_VX and LD_ST_VX are the only instructions that list a timer, and each writes V[x] to it. -/
theorem timersChangeOnlyByTheirCauses : Obligations.TimersChangeOnlyByTheirCauses := by
  refine ⟨fun c s t h hne => ?_, fun c s t h hne => ?_⟩
  · obtain hsame | hreset | htimers | ⟨rnd, op, i, rfl, hop, hd, hmem, hexec⟩ := timer_same_or_cause (.inl rfl) h
    · exact absurd hsame hne
    · exact .inl hreset
    · exact .inr (.inl htimers)
    · obtain ⟨x, rfl⟩ := eq_ldDtVx_of_dt_mem hmem
      cases hexec
      exact .inr (.inr ⟨rnd, op, x, rfl, hop, hd, rfl⟩)
  · obtain hsame | hreset | htimers | ⟨rnd, op, i, rfl, hop, hd, hmem, hexec⟩ := timer_same_or_cause (.inr rfl) h
    · exact absurd hsame hne
    · exact .inl hreset
    · exact .inr (.inl htimers)
    · obtain ⟨x, rfl⟩ := eq_ldStVx_of_st_mem hmem
      cases hexec
      exact .inr (.inr ⟨rnd, op, x, rfl, hop, hd, rfl⟩)

/-! ### A sequence of commands (R174, R181) -/

/-- The host's side, but for the byte of the TICK, is hidden from the body of a TICK. -/
theorem runTick_withHost {s t : State} {host : HostSide} (h : runTick s = .next t) (hrnd : host.rnd = s.host.rnd) :
    runTick { s with host := host } = .next { t with host := host } := by
  obtain ⟨hop, rfl⟩ | ⟨op, hop, hd, rfl⟩ | ⟨op, i, hop, hd, hexec⟩ := runTick_cases h
  · exact runTick_of_fetch_none (s := { s with host := host }) hop
  · exact runTick_of_illegal (s := { s with host := host }) hop hd
  · rw [runTick_of_decodes (s := { s with host := host }) hop hd]
    exact exec_mapHidden (k := id) (v := id) (h := fun _ => host) hexec (.inl rfl) (.inl rfl) (.inl hrnd)

theorem loadRom_withHost (bytes : List Byte) (s : State) (host : HostSide) :
    loadRom bytes { s with host := host } = { loadRom bytes s with host := host } := by
  by_cases hs : s.fault = none
  · cases hl : s.loaded with
    | true => simp [loadRom, hs, hl, State.raise]
    | false =>
      cases hw : Memory.writeBlock s.mem 512 bytes with
      | none | some => simp [loadRom, hs, hl, hw, State.raise]
  · rw [loadRom_halted (s := { s with host := host }) hs, loadRom_halted hs]

theorem tickTimers_withHost (s : State) (host : HostSide) :
    tickTimers { s with host := host } = { tickTimers s with host := host } := by
  unfold tickTimers State.halted
  split <;> rfl

theorem keypress_withHost (index : Nat) (pressed : Bool) (s : State) (host : HostSide) :
    keypress index pressed { s with host := host } = { keypress index pressed s with host := host } := by
  unfold keypress State.halted
  split
  · rfl
  · split <;> rfl

/-- What a command does to the block does not depend on the host's side, and it leaves the inbox alone. -/
theorem perform_withHost {c : Command} {s t : State} (h : perform c s = .next t) (host : HostSide) :
    ∃ host', perform c { s with host := host } = .next { t with host := host' } ∧ host'.inbox = host.inbox := by
  cases c with
  | reset | display =>
    cases h
    exact ⟨host, rfl, rfl⟩
  | load bytes =>
    cases h
    exact ⟨host, congrArg Host.Outcome.next (loadRom_withHost bytes s host), rfl⟩
  | tickTimers =>
    cases h
    exact ⟨host, congrArg Host.Outcome.next (tickTimers_withHost s host), rfl⟩
  | keypress index pressed =>
    cases h
    exact ⟨host, congrArg Host.Outcome.next (keypress_withHost index pressed s host), rfl⟩
  | tick rnd =>
    obtain ⟨hs, rfl⟩ | ⟨hs, hrun⟩ := tick_cases h
    · exact ⟨host, tick_halted (s := { t with host := host }) hs rnd, rfl⟩
    · refine ⟨{ host with rnd := rnd }, ?_, rfl⟩
      rw [perform, tick_running (s := { s with host := host }) hs]
      exact runTick_withHost (s := s.withRnd rnd) hrun rfl

theorem core_run_succ {s u : State} (h : step s = .next u) (k : Nat) : core.run (k + 1) s = core.run k u := by
  have hstep : core.step s = .next u := h
  simp only [Host.Core.run, hstep]

theorem performAll_cons {c : Command} {s u : State} (h : perform c s = .next u) (cs : List Command) :
    performAll (c :: cs) s = performAll cs u := by
  rw [performAll, h]

/-- Pending commands are performed in their order, on any state with the same block. -/
theorem run_pending (cs rest : List Command) {s s' : State} (hblock : SameBlock s s')
    (hi : s'.host.inbox = cs ++ rest) :
    ∃ t, core.run cs.length s' = .next t ∧ t.host.inbox = rest ∧ SameBlock (performAll cs s) t := by
  induction cs generalizing s s' with
  | nil => exact ⟨s', rfl, hi, hblock⟩
  | cons c cs ih =>
    obtain ⟨u, hu⟩ := perform_total c s
    obtain ⟨host, hperform, hinbox⟩ := perform_withHost hu { s'.host with inbox := cs ++ rest }
    have hstep : step s' = .next { u with host := host } := by
      rw [step_of_inbox_cons hi, hblock]
      exact hperform
    rw [List.length_cons, core_run_succ hstep, performAll_cons hu]
    exact ih rfl hinbox

/-- Settles O60: the commands pending are performed one by one, whatever the host's side is meanwhile. -/
theorem everyOrderOfCommandsRuns : Obligations.EveryOrderOfCommandsRuns :=
  fun cs rest _ hi => run_pending cs rest rfl hi

end Sys2Proof.Machine
end

section
/-! PROOFS. The invariant (10_state.md R25, 20_memory.md): every command keeps the pc and the return addresses in range and
memory in canonical form. -/

namespace Sys2Proof.Machine

/-! ### The reset state -/

theorem blockInv_reset : BlockInv State.reset :=
  ⟨by unfold PcInRange; decide, fun _ hk => absurd hk (Nat.not_lt_zero _), List.Pairwise.nil, by simp [State.reset]⟩

/-! ### An instruction that was fetched -/

/-- What a TICK knows of an instruction that it runs: it was fetched inside memory and fits its fields. -/
theorem fetched_pc_and_wellFormed {s : State} {op : Word} {i : Instr} (hop : s.fetch = some op)
    (hd : decodeWord op = some i) : s.pc.toNat ≤ 4094 ∧ i.wellFormed = true := by
  obtain ⟨hwf, -⟩ := encodes_of_decodeWord hd
  exact ⟨pc_le_of_fetch hop, hwf⟩

section
variable {i : Instr} {s t : State}

/-- A fetched instruction sets the pc near, to a 12-bit address, to such an address plus a byte, or to a return address. -/
theorem pcInRange_of_exec (h : exec i s = .next t) (hpc : s.pc.toNat ≤ 4094) (hwf : i.wellFormed = true)
    (hreturns : ReturnsInRange s) : PcInRange t := by
  have hstay : PcInRange s := Nat.le_trans hpc (by decide)
  cases i with
  | jp nnn =>
    cases h
    have hlt : nnn.toNat < 4096 := of_decide_eq_true hwf
    show nnn.toNat ≤ 4350
    omega
  | call nnn =>
    obtain ⟨-, rfl⟩ | ⟨k, -, rfl⟩ := exec_call_cases h
    · exact hstay
    · have hlt : nnn.toNat < 4096 := of_decide_eq_true hwf
      show nnn.toNat ≤ 4350
      omega
  | jpV0 nnn =>
    cases h
    have hlt : nnn.toNat < 4096 := of_decide_eq_true hwf
    have hV := (s.reg 0).isLt
    show ((s.reg 0).setWidth 16 + nnn).toNat ≤ 4350
    rw [BitVec.add_comm, word_add_byte_toNat]
    omega
  | ret =>
    obtain ⟨-, rfl⟩ | ⟨k, hsp, rfl⟩ := exec_ret_cases h
    · exact hstay
    · exact Nat.le_trans (hreturns k (by omega)) (by decide)
  | _ =>
    obtain ⟨-, hle⟩ := (pcNear_of_exec h (by simp) (by simp)).toNat_le hpc
    show t.pc.toNat ≤ 4350
    omega

/-- CALL pushes the address behind it, at most 4096 (R103). -/
theorem returnsInRange_of_exec_call {nnn : Word} (h : exec (.call nnn) s = .next t) (hpc : s.pc.toNat ≤ 4094)
    (hreturns : ReturnsInRange s) : ReturnsInRange t := by
  obtain ⟨-, rfl⟩ | ⟨k, hsp, rfl⟩ := exec_call_cases h
  · exact hreturns
  · intro j hj
    simp only [Fin.val_succ] at hj
    simp only [Vector.get_eq_getElem, Vector.getElem_set]
    split
    · bv_omega
    · exact hreturns j (by omega)

/-- Only CALL raises sp (R15). -/
theorem sp_le_of_exec (h : exec i s = .next t) (hcall : ∀ nnn, i ≠ .call nnn) : t.sp.val ≤ s.sp.val := by
  by_cases hmem : .sp ∈ mayChange i
  · obtain rfl := (eq_ret_or_call_of_sp_mem hmem).resolve_right (not_exists.mpr hcall)
    obtain ⟨-, rfl⟩ | ⟨k, hsp, rfl⟩ := exec_ret_cases h
    · exact Nat.le_refl _
    · simp only [Fin.val_castSucc]
      omega
  · exact Nat.le_of_eq (congrArg Fin.val (exec_frame h .sp hmem))

/-- Beside CALL nothing writes a slot, and nothing makes more of them held. -/
theorem returnsInRange_of_exec (h : exec i s = .next t) (hpc : s.pc.toNat ≤ 4094) (hreturns : ReturnsInRange s) :
    ReturnsInRange t := by
  by_cases hcall : ∃ nnn, i = .call nnn
  · obtain ⟨nnn, rfl⟩ := hcall
    exact returnsInRange_of_exec_call h hpc hreturns
  · have hsp := sp_le_of_exec h (not_exists.mp hcall)
    have hstack := exec_frame h .stack fun hmem => hcall (eq_call_of_stack_mem hmem)
    intro k hk
    rw [hstack k]
    exact hreturns k (Nat.lt_of_lt_of_le hk hsp)

/-- Memory changes by a block of checked writes at I, or not at all (R52). -/
theorem mem_of_exec (h : exec i s = .next t) :
    t.mem = s.mem ∨ ∃ bs, Memory.writeBlock s.mem (s.ea 0) bs = some t.mem := by
  cases i with
  | bcd | store =>
    obtain ⟨m, hm, rfl⟩ | ⟨-, rfl⟩ := commit_map_cases h
    · exact .inr ⟨_, hm⟩
    · exact .inl rfl
  | ret =>
    obtain ⟨-, rfl⟩ | ⟨k, -, rfl⟩ := exec_ret_cases h
    · exact .inl rfl
    · exact .inl rfl
  | call =>
    obtain ⟨-, rfl⟩ | ⟨k, -, rfl⟩ := exec_call_cases h
    · exact .inl rfl
    · exact .inl rfl
  | drw | load | skp | sknp =>
    obtain ⟨_, -, rfl⟩ | ⟨-, rfl⟩ := commit_map_cases h
    · exact .inl (by simp)
    · exact .inl rfl
  | waitkey =>
    obtain ⟨-, rfl⟩ | ⟨k, -, rfl⟩ := exec_waitkey_cases h
    · exact .inl rfl
    · exact .inl rfl
  | seImm | sneImm | seReg | sneReg =>
    cases h
    exact .inl (by simp)
  | _ =>
    cases h
    exact .inl rfl

/-- A fetched instruction keeps the invariant. -/
theorem blockInv_of_exec {op : Word} (hop : s.fetch = some op) (hd : decodeWord op = some i) (h : exec i s = .next t)
    (hinv : BlockInv s) : BlockInv t := by
  obtain ⟨hpc, hwf⟩ := fetched_pc_and_wellFormed hop hd
  obtain ⟨-, hreturns, hmem⟩ := hinv
  refine ⟨pcInRange_of_exec h hpc hwf hreturns, returnsInRange_of_exec h hpc hreturns, ?_⟩
  obtain hsame | ⟨bs, hbs⟩ := mem_of_exec h
  · rwa [hsame]
  · exact Memory.wf_writeBlock hmem hbs

end

/-! ### Every command -/

theorem blockInv_of_runTick {s t : State} (h : runTick s = .next t) (hinv : BlockInv s) : BlockInv t := by
  obtain ⟨-, rfl⟩ | ⟨op, -, -, rfl⟩ | ⟨op, i, hop, hd, hexec⟩ := runTick_cases h
  · exact hinv
  · exact hinv
  · exact blockInv_of_exec hop hd hexec hinv

theorem blockInv_loadRom (bytes : List Byte) {s : State} (hinv : BlockInv s) : BlockInv (loadRom bytes s) := by
  obtain ⟨hpc, hreturns, hmem⟩ := hinv
  unfold loadRom
  split
  · exact ⟨hpc, hreturns, hmem⟩
  · split
    · exact ⟨hpc, hreturns, hmem⟩
    · split
      · exact ⟨hpc, hreturns, hmem⟩
      · next m hm => exact ⟨hpc, hreturns, Memory.wf_writeBlock hmem hm⟩

theorem blockInv_keypress (index : Nat) (pressed : Bool) {s : State} (hinv : BlockInv s) :
    BlockInv (keypress index pressed s) := by
  unfold keypress
  split
  · exact hinv
  · split <;> exact hinv

theorem blockInv_tickTimers {s : State} (hinv : BlockInv s) : BlockInv (tickTimers s) := by
  unfold tickTimers
  split <;> exact hinv

theorem blockInv_of_perform {c : Command} {s t : State} (h : perform c s = .next t) (hinv : BlockInv s) : BlockInv t := by
  cases c with
  | reset =>
    cases h
    exact blockInv_reset
  | load bytes =>
    cases h
    exact blockInv_loadRom bytes hinv
  | tickTimers =>
    cases h
    exact blockInv_tickTimers hinv
  | keypress index pressed =>
    cases h
    exact blockInv_keypress index pressed hinv
  | display =>
    cases h
    exact hinv
  | tick rnd =>
    obtain ⟨-, rfl⟩ | ⟨-, hrun⟩ := tick_cases h
    · exact hinv
    · exact blockInv_of_runTick (s := s.withRnd rnd) hrun hinv

/-! ### The obligations -/

/-- Settles O50: 512 is in range, no address is held and no byte is listed. -/
theorem resetMeetsTheInvariant : Obligations.ResetMeetsTheInvariant := blockInv_reset

/-- Settles O49: a step is one command on the same block, and every command keeps the invariant. -/
theorem stepKeepsTheInvariant : Obligations.StepKeepsTheInvariant := by
  intro s t hinv hstep
  obtain ⟨host, hperform, -⟩ := step_performs s
  rw [hperform] at hstep
  exact blockInv_of_perform (s := { s with host := host }) hstep hinv

end Sys2Proof.Machine
end
